-- ==== Sys2Proof/Word.lean ====
section
/-! DEFINITION. The words of the oscillator block: bus data, bus words, register addresses, and binary32 patterns.

Bit 0 is the least significant bit of every word (R9). -/

namespace Sys2Proof

/-- 32 bits of bus data: `cfg_wdata`, `cfg_rdata`, and the field `D` of a bus word (R91, R95). -/
abbrev Word := BitVec 32

/-- A register address: `cfg_addr`, the field `A` of a bus word (R91, R95). -/
abbrev Addr := BitVec 4

/-- The 37-bit bus word, W then A then D from the most significant bit down (R95). -/
abbrev BusWord := BitVec 37

/-- An 8-bit unsigned sample, volume or output, or an 8-bit note number (R30). -/
abbrev Byte := BitVec 8

/-- The 32-bit pattern of an IEEE 754 binary32 value (R11). Every frequency, phase and increment is held as its pattern,
which is also what a register read returns. -/
abbrev F32 := BitVec 32

end Sys2Proof
end

