-- ==== Sys2Proof/Syntax.lean ====
section
/-! DEFINITION. The instructions: one constructor per row of spec/opcode_table.json (R90, R110, R111).

Bus operations carry every bit of their word that the row's mask leaves free, the ignored ones too, so that a bus word and
its instruction determine each other. -/

namespace Sys2Proof

/-- The sixteen rows of the opcode table. `d` is the write data `D`; `x` is the data of a read, which the block ignores
(R106); `a` is the address where the row's mask leaves it open. -/
inductive Instr where
  /-- SETWAVE, word W = 1, A = 0x0 (R120). -/
  | setwave (d : Word)
  /-- SETFREQ, W = 1, A = 0x1 (R121). -/
  | setfreq (d : Word)
  /-- SETVOL, W = 1, A = 0x2 (R124). -/
  | setvol (d : Word)
  /-- SETQUANT, W = 1, A = 0x3 (R125). -/
  | setquant (d : Word)
  /-- WRIGN_4_7, W = 1, A in 0x4 to 0x7 (R126). -/
  | wrign47 (a : Addr) (d : Word)
  /-- WRIGN_8_F, W = 1, A in 0x8 to 0xF (R126). -/
  | wrign8F (a : Addr) (d : Word)
  /-- RDWAVE, W = 0, A = 0x0 (R130). -/
  | rdwave (x : Word)
  /-- RDFREQ, W = 0, A = 0x1 (R131). -/
  | rdfreq (x : Word)
  /-- RDVOL, W = 0, A = 0x2 (R132). -/
  | rdvol (x : Word)
  /-- RDQUANT, W = 0, A = 0x3 (R133). -/
  | rdquant (x : Word)
  /-- RDEFREQ, W = 0, A = 0x4 (R134). -/
  | rdefreq (x : Word)
  /-- RDINC, W = 0, A = 0x5 (R135). -/
  | rdinc (x : Word)
  /-- RDNOTE, W = 0, A = 0x6 (R136). -/
  | rdnote (x : Word)
  /-- RDOUT, W = 0, A = 0x7 (R137). -/
  | rdout (x : Word)
  /-- RDRSV, W = 0, A in 0x8 to 0xF (R138). -/
  | rdrsv (a : Addr) (x : Word)
  /-- TICK, the one-bit `tick` port at 1 (R92, R150). -/
  | tick
deriving DecidableEq, Repr

end Sys2Proof
end

