-- ==== Sys2Proof/WellFormed.lean ====
section
/-! DEFINITION. Well-formed instructions: an address operand lies in its row's range (R96, R105, R108). -/

namespace Sys2Proof

/-- The address operand of WRIGN_4_7 lies in 0x4 to 0x7, that of WRIGN_8_F and RDRSV in 0x8 to 0xF (R105, R110). Every other
operand may have any value: no bus word is illegal (R98). -/
def Instr.wellFormed : Instr → Bool
  | .setwave _ => true
  | .setfreq _ => true
  | .setvol _ => true
  | .setquant _ => true
  | .wrign47 a _ => decide (4 ≤ a.toNat ∧ a.toNat ≤ 7)
  | .wrign8F a _ => decide (8 ≤ a.toNat)
  | .rdwave _ => true
  | .rdfreq _ => true
  | .rdvol _ => true
  | .rdquant _ => true
  | .rdefreq _ => true
  | .rdinc _ => true
  | .rdnote _ => true
  | .rdout _ => true
  | .rdrsv a _ => decide (8 ≤ a.toNat)
  | .tick => true

end Sys2Proof
end

