-- ==== Sys2Proof/Decode.lean ====
section
/-! DEFINITION. Decoding and encoding: the two carriers of an operation (the bus word and the tick port), the decoder of R105,
the encoder from R108 and R110, the opcode table of R110, and the reading of the table's own numbering.

The block has no byte-addressed storage, so no byte order enters (R68): a bus word is one 37-bit value. -/

namespace Sys2Proof

/-- What carries an operation into the block: a 37-bit bus word, or the one-bit `tick` port (R92, R95). The two are the
formats BUS37 and TICK_PORT of the opcode table (R111). -/
inductive OpWord where
  | bus (w : BusWord)
  | tickPort (t : BitVec 1)
deriving DecidableEq, Repr

/-- Why something is no operation. No bus word is ever among these (R98). -/
inductive DecodeReject where
  /-- The `tick` port is 0: nothing is requested (R92). -/
  | tickPortLow
  /-- More than one bit for the one-bit `tick` port (R111). -/
  | notOneTickBit
  /-- A value of more than 37 bits is no bus word (R95). -/
  | widerThanBusWord
deriving DecidableEq, Repr

/-- `{W, A, D}` (R95). -/
def busWordOf (write : Bool) (a : Addr) (d : Word) : BusWord :=
  BitVec.ofBool write ++ a ++ d

/-- The field `W`, bit 36 (R95). -/
def fieldW (w : BusWord) : Bool := w.getLsbD 36

/-- The field `A`, bits 35 to 32 (R95). -/
def fieldA (w : BusWord) : Addr := w.extractLsb' 32 4

/-- The field `D`, bits 31 to 0 (R95). -/
def fieldD (w : BusWord) : Word := w.extractLsb' 0 32

/-- The writes of R105: `A` selects the operation. -/
def decodeWrite (a : Addr) (d : Word) : Instr :=
  match a.toNat with
  | 0 => .setwave d
  | 1 => .setfreq d
  | 2 => .setvol d
  | 3 => .setquant d
  | n => if n ≤ 7 then .wrign47 a d else .wrign8F a d

/-- The reads of R105: `A` selects the operation. -/
def decodeRead (a : Addr) (x : Word) : Instr :=
  match a.toNat with
  | 0 => .rdwave x
  | 1 => .rdfreq x
  | 2 => .rdvol x
  | 3 => .rdquant x
  | 4 => .rdefreq x
  | 5 => .rdinc x
  | 6 => .rdnote x
  | 7 => .rdout x
  | _ => .rdrsv a x

/-- The decoder of R105. It is total: every 37-bit word names exactly one operation. -/
def decodeBus (w : BusWord) : Instr :=
  if fieldW w then decodeWrite (fieldA w) (fieldD w) else decodeRead (fieldA w) (fieldD w)

/-- Decoding of whatever carries an operation: a bus word by R105, the `tick` port by R92. -/
def decode : OpWord → Except DecodeReject Instr
  | .bus w => .ok (decodeBus w)
  | .tickPort t => if t = 1 then .ok .tick else .error .tickPortLow

/-- The encoder, from the words of R108 and R120 to R138. -/
def encode : Instr → OpWord
  | .setwave d => .bus (busWordOf true 0x0 d)
  | .setfreq d => .bus (busWordOf true 0x1 d)
  | .setvol d => .bus (busWordOf true 0x2 d)
  | .setquant d => .bus (busWordOf true 0x3 d)
  | .wrign47 a d => .bus (busWordOf true a d)
  | .wrign8F a d => .bus (busWordOf true a d)
  | .rdwave x => .bus (busWordOf false 0x0 x)
  | .rdfreq x => .bus (busWordOf false 0x1 x)
  | .rdvol x => .bus (busWordOf false 0x2 x)
  | .rdquant x => .bus (busWordOf false 0x3 x)
  | .rdefreq x => .bus (busWordOf false 0x4 x)
  | .rdinc x => .bus (busWordOf false 0x5 x)
  | .rdnote x => .bus (busWordOf false 0x6 x)
  | .rdout x => .bus (busWordOf false 0x7 x)
  | .rdrsv a x => .bus (busWordOf false a x)
  | .tick => .tickPort 1

/-- The mnemonic of an instruction's row in the opcode table. -/
def mnemonic : Instr → String
  | .setwave _ => "SETWAVE"
  | .setfreq _ => "SETFREQ"
  | .setvol _ => "SETVOL"
  | .setquant _ => "SETQUANT"
  | .wrign47 _ _ => "WRIGN_4_7"
  | .wrign8F _ _ => "WRIGN_8_F"
  | .rdwave _ => "RDWAVE"
  | .rdfreq _ => "RDFREQ"
  | .rdvol _ => "RDVOL"
  | .rdquant _ => "RDQUANT"
  | .rdefreq _ => "RDEFREQ"
  | .rdinc _ => "RDINC"
  | .rdnote _ => "RDNOTE"
  | .rdout _ => "RDOUT"
  | .rdrsv _ _ => "RDRSV"
  | .tick => "TICK"

/-- One bus row of the opcode table: a word belongs to it when it agrees with `pattern` on the bits of `mask` (R110). -/
structure OpcodeRow where
  mnemonic : String
  pattern : BusWord
  mask : BusWord
deriving DecidableEq, Repr

/-- The word belongs to the row (R110). -/
def rowMatches (r : OpcodeRow) (w : BusWord) : Bool := w &&& r.mask == r.pattern

/-- The fifteen bus rows of R110. The sixteenth row, TICK, has no bus word (R95, R111). -/
def opcodeTable : List OpcodeRow := [
  ⟨"SETWAVE", 0x1000000000, 0x1F00000000⟩,
  ⟨"SETFREQ", 0x1100000000, 0x1F00000000⟩,
  ⟨"SETVOL", 0x1200000000, 0x1F00000000⟩,
  ⟨"SETQUANT", 0x1300000000, 0x1F00000000⟩,
  ⟨"WRIGN_4_7", 0x1400000000, 0x1C00000000⟩,
  ⟨"WRIGN_8_F", 0x1800000000, 0x1800000000⟩,
  ⟨"RDWAVE", 0x0000000000, 0x1F00000000⟩,
  ⟨"RDFREQ", 0x0100000000, 0x1F00000000⟩,
  ⟨"RDVOL", 0x0200000000, 0x1F00000000⟩,
  ⟨"RDQUANT", 0x0300000000, 0x1F00000000⟩,
  ⟨"RDEFREQ", 0x0400000000, 0x1F00000000⟩,
  ⟨"RDINC", 0x0500000000, 0x1F00000000⟩,
  ⟨"RDNOTE", 0x0600000000, 0x1F00000000⟩,
  ⟨"RDOUT", 0x0700000000, 0x1F00000000⟩,
  ⟨"RDRSV", 0x0800000000, 0x1800000000⟩]

/-- The opcode table's numbering (R111): a row of at most one byte is the `tick` port, any longer row is a bus word whose
bit 0 is `D[0]` (log entry 3). -/
def tableWord (nbits w : Nat) : Except DecodeReject OpWord :=
  if nbits ≤ 8 then
    if w < 2 then .ok (.tickPort (BitVec.ofNat 1 w)) else .error .notOneTickBit
  else
    if w < 2 ^ 37 then .ok (.bus (BitVec.ofNat 37 w)) else .error .widerThanBusWord

/-- The instruction the decoder reads from a word in the opcode table's numbering. -/
def decodeTableWord (nbits w : Nat) : Option Instr :=
  match tableWord nbits w with
  | .ok o => (decode o).toOption
  | .error _ => none

end Sys2Proof
end

