-- ==== Sys2Proof/Config.lean ====
section
/-! DEFINITION. The block's fixed parameters (R7) and the values the spec leaves free.

`N` and `SR` are constants: the ROM contents, the quantizer range and the frequency clamp are given for these values only,
and any other value is refused (R8, 93_implementation_defined.md I3), here by not being a parameter at all. -/

namespace Sys2Proof.Config

/-- `N`, the entries of a waveform table (R7). -/
def tableSize : Nat := 256

/-- `SR`, the sample rate in Hz (R7). -/
def sampleRate : Nat := 22050

/-- FREE VALUE (DESIGN CHOICE, log entry 5): the PHASE that the `k`-th TICK outside the premise of R151 leaves. No body:
nothing can be proved about its value. -/
opaque freePhase : Nat → F32

/-- FREE VALUE (DESIGN CHOICE, log entry 5): the sample that the `k`-th TICK looks up when its index is not in 0 to 255. -/
opaque freeSample : Nat → Byte

/-- FREE VALUE (log entry 4): what the state elements hold between power-up and the first reset cycle (R223, I1), numbered
in the order of R30's table, then `cfg_rdata`. -/
opaque powerUp : Nat → Word

end Sys2Proof.Config
end

