-- ==== Sys2Proof/Machine/Binary32.lean ====
section
/-! DEFINITION. Binary32 values and the numeric primitives of R11, in exact integer arithmetic.

Every finite binary32 magnitude is a whole number of UNITS of 2^-149, the spacing of the subnormals. A magnitude is held as that
natural number, so sums, products and comparisons are exact and only `rn32` rounds. -/

namespace Sys2Proof.Machine

/-- The sign, bit 31 (R11). -/
def signBit (x : F32) : Bool := x.getLsbD 31

/-- The biased exponent, bits 30 to 23 (R11). -/
def expField (x : F32) : Nat := (x.extractLsb' 23 8).toNat

/-- The fraction, bits 22 to 0 (R11). -/
def fracField (x : F32) : Nat := (x.extractLsb' 0 23).toNat

/-- Exponent 255 with a nonzero fraction (R11). -/
def isNaN (x : F32) : Bool := expField x == 255 && fracField x != 0

/-- Exponent 255 with fraction 0 (R11). -/
def isInf (x : F32) : Bool := expField x == 255 && fracField x == 0

/-- A zero, a subnormal or a normal number (R11). -/
def isFinite (x : F32) : Bool := expField x != 255

/-- A signed zero (R11). -/
def isZero (x : F32) : Bool := expField x == 0 && fracField x == 0

/-- The real number a finite pattern encodes, as R11 writes it. The machine does not compute with it; statements do. -/
def f32Value (x : F32) : ℚ :=
  let s : ℚ := if signBit x then -1 else 1
  if expField x = 0 then s * (2 : ℚ) ^ (-126 : ℤ) * (fracField x / 2 ^ 23)
  else s * (2 : ℚ) ^ ((expField x : ℤ) - 127) * (1 + fracField x / 2 ^ 23)

/-- The magnitude of a finite pattern in units of 2^-149 (R11). -/
def magUnits (x : F32) : Nat :=
  if expField x = 0 then fracField x else (2 ^ 23 + fracField x) * 2 ^ (expField x - 1)

/-- One whole number, in units of 2^-149. -/
def unitsPerOne : Nat := 2 ^ 149

/-- A finite number that is zero or positive. Minus zero counts: its value is 0 (log entry 6). -/
def nonNegFinite (x : F32) : Bool := isFinite x && (!signBit x || isZero x)

/-- Round a quotient of naturals to the nearest natural, halves to the even one. -/
def divNearestEven (num den : Nat) : Nat :=
  let q := num / den
  let twice := 2 * (num % den)
  if twice < den then q
  else if den < twice then q + 1
  else if q % 2 = 0 then q else q + 1

/-- How far the last place of a magnitude of `u` whole units lies above one unit: 0 for subnormals and the lowest normals, then
one more for each doubling (R11). -/
def ulpExponent (u : Nat) : Nat := Nat.log2 u - 23

/-- `num / den` units rounded to the last place of its binade, halves to the even fraction, as a pattern number. In a binade whose last
place is `2^k` units the value of `m` last places has the pattern `k * 2^23 + m`; at `m = 2^24` that is the first pattern of the
next binade. There is no upper end: above the largest finite value the number is no pattern of a number. -/
def binadePattern (num den : Nat) : Nat :=
  let k := ulpExponent (num / den)
  k * 2 ^ 23 + divNearestEven num (den * 2 ^ k)

/-- The largest finite binary32 value, `(2^24 - 1) * 2^104` (R11). -/
def largestF32 : F32 := 0x7F7FFFFF

/-- The pattern, as a number, of `RN32(r)` for the real `r = num / den` units (R11): the nearest binary32 value, halves to the even
fraction. An infinity is no value, so nearest to every `r` above the largest finite value is that value. -/
def rn32Pattern (num den : Nat) : Nat := min (binadePattern num den) largestF32.toNat

/-- `RN32(num / den * 2^-149)` (R11). -/
def rn32 (num den : Nat) : F32 := BitVec.ofNat 32 (rn32Pattern num den)

/-- `RN32(num / den * 2^-149)` where R11 states it, for a real smaller than `2^128`. -/
def statedRn32 (num den : Nat) : Option F32 :=
  if num < 2 ^ 128 * unitsPerOne * den then some (rn32 num den) else none

/-- What R11 says of `x = RN32(r)`, for a real `r` that is zero or positive: `x` is a finite value without sign, no other is nearer
to `r`, and where another is equally near the fraction of `x` is even. Statements use it; the machine computes `rn32`. -/
def IsRN32 (r : ℝ) (x : F32) : Prop :=
  signBit x = false ∧ isFinite x = true ∧
    ∀ y : F32, signBit y = false → isFinite y = true →
      |(f32Value x : ℝ) - r| ≤ |(f32Value y : ℝ) - r| ∧
        (|(f32Value x : ℝ) - r| = |(f32Value y : ℝ) - r| → y = x ∨ fracField x % 2 = 0)

/-- The pattern of an exact value of `u` units, where binary32 has one (`bits32` of R11). -/
def exactF32 (u : Nat) : Option F32 :=
  let x := rn32 u 1
  if magUnits x == u then some x else none

/-- `x <= y` for two numbers that are zero or positive. -/
def leMag (x y : F32) : Bool := decide (magUnits x ≤ magUnits y)

/-- `floor(x)` for a finite number that is zero or positive (R10, R153). -/
def floorF32 (x : F32) : Nat := magUnits x / unitsPerOne

/-- 1.0, the quantizer's guard (R170). -/
def oneHz : F32 := 0x3F800000

/-- FMAX = 11025.0 = SR / 2 (R7, R122). -/
def fMax : F32 := 0x462C4400

/-- `clampF` (R122): NaN and everything at most 0 give +0.0, everything above FMAX gives FMAX, the rest is unchanged. -/
def clampF (x : F32) : F32 :=
  if isNaN x then 0
  else if signBit x || isZero x then 0
  else if isInf x || !leMag x fMax then fMax
  else x

/-- `incr(e) = RN32(e * 256 / 22050)` (R123): exact product and quotient, one rounding, subnormal results kept (R11). Corner case (e) of
R121 says that a positive subnormal request gives `INC = +0`; by R123 that is so for 0x00000001 to 0x0000002B only, and DEDUCED: this
follows R123 for the subnormals above too (log entry 15). -/
def incr (e : F32) : F32 := rn32 (magUnits e * Config.tableSize) Config.sampleRate

/-- The frequency in Hz of the output at a given tick rate: `INC * TICK_RATE / 256` (93_implementation_defined.md I2, R207).
The tick rate is the host's; no state depends on it (log entry 10). -/
def outputHz (tickRate : ℚ) (inc : F32) : ℚ := f32Value inc * tickRate / Config.tableSize

end Sys2Proof.Machine
end

