-- ==== Sys2Proof/Machine/Quantizer.lean ====
section
/-! DEFINITION. The quantizer ROM (R67) and the quantizer (R170 to R178). -/

namespace Sys2Proof.Machine

/-- The number of the first row, C-4 (R67, R174). -/
def firstNote : Int := -36

/-- The quantizer ROM (R67), from note -36 up, an octave a block: `F(n)`, then `T(n)`. -/
def quantRom : List (F32 × F32) :=
  -- notes -36 to -25
  [(0x3F82D013, 0x3F86A559), (0x3F8A9760, 0x3F8EA700), (0x3F92D517, 0x3F972288),
   (0x3F9B9041, 0x3FA01F31), (0x3FA4D054, 0x3FA9A4A8), (0x3FAE9D37, 0x3FB3BB0F),
   (0x3FB8FF49, 0x3FBE6B04), (0x3FC3FF6A, 0x3FC9BDAA), (0x3FCFA700, 0x3FD5BCAD),
   (0x3FDC0000, 0x3FE2724D), (0x3FE914F6, 0x3FEFE965), (0x3FF6F110, 0x3FFE2D76)] ++
  -- notes -24 to -13
  [(0x4002D013, 0x4006A559), (0x400A9760, 0x400EA700), (0x4012D517, 0x40172288),
   (0x401B9041, 0x40201F31), (0x4024D054, 0x4029A4A8), (0x402E9D37, 0x4033BB0F),
   (0x4038FF49, 0x403E6B04), (0x4043FF6A, 0x4049BDAA), (0x404FA700, 0x4055BCAD),
   (0x405C0000, 0x4062724D), (0x406914F6, 0x406FE965), (0x4076F110, 0x407E2D76)] ++
  -- notes -12 to -1
  [(0x4082D013, 0x4086A559), (0x408A9760, 0x408EA700), (0x4092D517, 0x40972288),
   (0x409B9041, 0x40A01F31), (0x40A4D054, 0x40A9A4A8), (0x40AE9D37, 0x40B3BB0F),
   (0x40B8FF49, 0x40BE6B04), (0x40C3FF6A, 0x40C9BDAA), (0x40CFA700, 0x40D5BCAD),
   (0x40DC0000, 0x40E2724D), (0x40E914F6, 0x40EFE965), (0x40F6F110, 0x40FE2D76)] ++
  -- notes 0 to 11
  [(0x4102D013, 0x4106A559), (0x410A9760, 0x410EA700), (0x4112D517, 0x41172288),
   (0x411B9041, 0x41201F31), (0x4124D054, 0x4129A4A8), (0x412E9D37, 0x4133BB0F),
   (0x4138FF49, 0x413E6B04), (0x4143FF6A, 0x4149BDAA), (0x414FA700, 0x4155BCAD),
   (0x415C0000, 0x4162724D), (0x416914F6, 0x416FE965), (0x4176F110, 0x417E2D76)] ++
  -- notes 12 to 23
  [(0x4182D013, 0x4186A559), (0x418A9760, 0x418EA700), (0x4192D517, 0x41972288),
   (0x419B9041, 0x41A01F31), (0x41A4D054, 0x41A9A4A8), (0x41AE9D37, 0x41B3BB0F),
   (0x41B8FF49, 0x41BE6B04), (0x41C3FF6A, 0x41C9BDAA), (0x41CFA700, 0x41D5BCAD),
   (0x41DC0000, 0x41E2724D), (0x41E914F6, 0x41EFE965), (0x41F6F110, 0x41FE2D76)] ++
  -- notes 24 to 35
  [(0x4202D013, 0x4206A559), (0x420A9760, 0x420EA700), (0x4212D517, 0x42172288),
   (0x421B9041, 0x42201F31), (0x4224D054, 0x4229A4A8), (0x422E9D37, 0x4233BB0F),
   (0x4238FF49, 0x423E6B04), (0x4243FF6A, 0x4249BDAA), (0x424FA700, 0x4255BCAD),
   (0x425C0000, 0x4262724D), (0x426914F6, 0x426FE965), (0x4276F110, 0x427E2D76)] ++
  -- notes 36 to 47
  [(0x4282D013, 0x4286A559), (0x428A9760, 0x428EA700), (0x4292D517, 0x42972288),
   (0x429B9041, 0x42A01F31), (0x42A4D054, 0x42A9A4A8), (0x42AE9D37, 0x42B3BB0F),
   (0x42B8FF49, 0x42BE6B04), (0x42C3FF6A, 0x42C9BDAA), (0x42CFA700, 0x42D5BCAD),
   (0x42DC0000, 0x42E2724D), (0x42E914F6, 0x42EFE965), (0x42F6F110, 0x42FE2D76)] ++
  -- notes 48 to 59
  [(0x4302D013, 0x4306A559), (0x430A9760, 0x430EA700), (0x4312D517, 0x43172288),
   (0x431B9041, 0x43201F31), (0x4324D054, 0x4329A4A8), (0x432E9D37, 0x4333BB0F),
   (0x4338FF49, 0x433E6B04), (0x4343FF6A, 0x4349BDAA), (0x434FA700, 0x4355BCAD),
   (0x435C0000, 0x4362724D), (0x436914F6, 0x436FE965), (0x4376F110, 0x437E2D76)] ++
  -- notes 60 to 71
  [(0x4382D013, 0x4386A559), (0x438A9760, 0x438EA700), (0x4392D517, 0x43972288),
   (0x439B9041, 0x43A01F31), (0x43A4D054, 0x43A9A4A8), (0x43AE9D37, 0x43B3BB0F),
   (0x43B8FF49, 0x43BE6B04), (0x43C3FF6A, 0x43C9BDAA), (0x43CFA700, 0x43D5BCAD),
   (0x43DC0000, 0x43E2724D), (0x43E914F6, 0x43EFE965), (0x43F6F110, 0x43FE2D76)] ++
  -- notes 72 to 83
  [(0x4402D013, 0x4406A559), (0x440A9760, 0x440EA700), (0x4412D517, 0x44172288),
   (0x441B9041, 0x44201F31), (0x4424D054, 0x4429A4A8), (0x442E9D37, 0x4433BB0F),
   (0x4438FF49, 0x443E6B04), (0x4443FF6A, 0x4449BDAA), (0x444FA700, 0x4455BCAD),
   (0x445C0000, 0x4462724D), (0x446914F6, 0x446FE965), (0x4476F110, 0x447E2D76)] ++
  -- notes 84 to 95
  [(0x4482D013, 0x4486A559), (0x448A9760, 0x448EA700), (0x4492D517, 0x44972288),
   (0x449B9041, 0x44A01F31), (0x44A4D054, 0x44A9A4A8), (0x44AE9D37, 0x44B3BB0F),
   (0x44B8FF49, 0x44BE6B04), (0x44C3FF6A, 0x44C9BDAA), (0x44CFA700, 0x44D5BCAD),
   (0x44DC0000, 0x44E2724D), (0x44E914F6, 0x44EFE965), (0x44F6F110, 0x44FE2D76)] ++
  -- notes 96 to 107
  [(0x4502D013, 0x4506A559), (0x450A9760, 0x450EA700), (0x4512D517, 0x45172288),
   (0x451B9041, 0x45201F31), (0x4524D054, 0x4529A4A8), (0x452E9D37, 0x4533BB0F),
   (0x4538FF49, 0x453E6B04), (0x4543FF6A, 0x4549BDAA), (0x454FA700, 0x4555BCAD),
   (0x455C0000, 0x4562724D), (0x456914F6, 0x456FE965), (0x4576F110, 0x457E2D76)] ++
  -- notes 108 to 119
  [(0x4582D013, 0x4586A559), (0x458A9760, 0x458EA700), (0x4592D517, 0x45972288),
   (0x459B9041, 0x45A01F31), (0x45A4D054, 0x45A9A4A8), (0x45AE9D37, 0x45B3BB0F),
   (0x45B8FF49, 0x45BE6B04), (0x45C3FF6A, 0x45C9BDAA), (0x45CFA700, 0x45D5BCAD),
   (0x45DC0000, 0x45E2724D), (0x45E914F6, 0x45EFE965), (0x45F6F110, 0x45FE2D76)] ++
  -- notes 120 to 125
  [(0x4602D013, 0x4606A559), (0x460A9760, 0x460EA700), (0x4612D517, 0x46172288),
   (0x461B9041, 0x46201F31), (0x4624D054, 0x4629A4A8), (0x462E9D37, 0x4633BB0F)]

/-- Column `F` of row `n`, the frequency of note `n` (R67, R173). -/
def noteFrequency (n : Int) : F32 := (quantRom.getD (n - firstNote).toNat (0, 0)).1

/-- Column `T` of row `n`, the largest frequency that belongs to note `n` (R67, R172). -/
def noteThreshold (n : Int) : F32 := (quantRom.getD (n - firstNote).toNat (0, 0)).2

/-- `noteOf(f)`, the least `n` with `f <= T(n)` (R172). -/
def noteOf (f : F32) : Int := firstNote + (quantRom.findIdx fun row => leMag f row.2 : Nat)

/-- `quantize(f)`: below 1 Hz unchanged, else the frequency of the nearest note (R170). -/
def quantize (f : F32) : F32 := if leMag oneHz f then noteFrequency (noteOf f) else f

/-- `octave(n)`, by floor division (R177). -/
def octave (n : Int) : Int := n.fdiv 12 - 1

/-- `pitchClass(n)`, 0 to 11 (R177). -/
def pitchClass (n : Int) : Nat := (n.fmod 12).toNat

/-- The pitch classes that R178 names by a letter alone, the highest first. -/
def letterClasses : List (Nat × String) := [(11, "B"), (9, "A"), (7, "G"), (5, "F"), (4, "E"), (2, "D"), (0, "C")]

/-- The name of a pitch class (R178): its letter, or, between two letters, the sharp of the lower. -/
def pitchName (c : Nat) : String :=
  match letterClasses.find? fun r => decide (r.1 ≤ c) with
  | some (l, name) => if l = c then name else name ++ "#"
  | none => ""

/-- The name of note `n`: the name of its pitch class, then its octave in decimal (R178). Informational: no operation returns it. -/
def noteName (n : Int) : String := pitchName (pitchClass n) ++ toString (octave n)

end Sys2Proof.Machine
end

