-- ==== Sys2Proof/Machine/State.lean ====
section
/-! DEFINITION. The state of the oscillator block: the ten elements of R30, the output port `cfg_rdata`, the input pins of the
coming clock cycles, and a counter for free values. Reset is R220. -/

namespace Sys2Proof.Machine

/-- The four waveforms that SEL names (R97); all four codes are legal. -/
inductive Waveform where
  | sine
  | square
  | sawtooth
  | triangle
deriving DecidableEq, Repr, Inhabited

/-- The input pins in one clock cycle (R91). -/
structure Pins where
  /-- `rst`, synchronous reset, active high (R221). -/
  rst : Bool
  /-- `tick`, the sample strobe (R92). -/
  tick : Bool
  /-- `cfg_valid`: a bus transaction is present. -/
  cfgValid : Bool
  /-- `cfg_write`: 1 is a write, 0 a read. -/
  cfgWrite : Bool
  /-- `cfg_addr`, the register address (R96). -/
  cfgAddr : Addr
  /-- `cfg_wdata`, the write data; ignored by reads. -/
  cfgWdata : Word
deriving DecidableEq, Repr, Inhabited

/-- Every input pin at 0: no reset, no tick, no transaction (the `nop` line of R108). -/
def Pins.idle : Pins :=
  { rst := false, tick := false, cfgValid := false, cfgWrite := false, cfgAddr := 0, cfgWdata := 0 }

/-- The machine. The first ten fields are exactly the elements of R30, in its order. -/
structure State where
  /-- SEL, the waveform selector. -/
  sel : Waveform
  /-- TGT, the target frequency, binary32. -/
  tgt : F32
  /-- EFF, the effective frequency, binary32. -/
  eff : F32
  /-- INC, the phase increment, binary32. -/
  inc : F32
  /-- VOL, the volume. -/
  vol : Byte
  /-- QEN, the quantization-enabled flag. -/
  qen : Bool
  /-- NOTE, the note number of the last quantization, two's complement. -/
  note : Byte
  /-- NV: EFF came from the quantizer. -/
  nv : Bool
  /-- PHASE, the phase accumulator, binary32; no bus transaction reaches it (R33). -/
  phase : F32
  /-- OUT, the sample output, always driven on `dac_out` (R35, R94). -/
  out : Byte
  /-- What the port `cfg_rdata` carried in the cycle just performed (R91, R93). Model's own record (log entry 2). -/
  cfgRdata : Word
  /-- The input pins of the coming clock cycles, the next cycle first. Model's own field: the outside world (log entry 1). -/
  inputs : List Pins
  /-- How many TICKs have used a free value. Model's own field (log entry 5). -/
  freeCtr : Nat
deriving DecidableEq, Repr

/-- Why a step stops with a fault: never. The block raises no exception, every bus word decodes and every operand is accepted
(R200), so the type has no constructor. -/
inductive Fault where
deriving DecidableEq, Repr

/-- Why a step has no meaning. -/
inductive Refusal where
  /-- Raised by an arm of `exec` whose instruction has no meaning yet; safe. No arm raises it now. -/
  | notModelled (mnemonic : String)
deriving DecidableEq, Repr

/-- The state a reset cycle leaves (R220), with nothing on `cfg_rdata` (R93, R221), no pins listed (log entry 1) and no free
value used (log entry 5). -/
def State.reset : State where
  sel := .sine
  tgt := 0x00000000
  eff := 0x00000000
  inc := 0x00000000
  vol := 0
  qen := false
  note := 0
  nv := false
  phase := 0x00000000
  out := 0
  cfgRdata := 0x00000000
  inputs := []
  freeCtr := 0

end Sys2Proof.Machine
end

