-- ==== Sys2Proof/Machine/Flags.lean ====
section
/-! DEFINITION. The two one-bit status elements, QEN and NV (R39). There are no condition codes and no overflow, error or busy flag.
QEN is written only by SETQUANT, NV only by SETFREQ, with the value computed here. -/

namespace Sys2Proof.Machine

/-- What SETFREQ writes to NV, and whether it quantizes: QEN is set and the clamped frequency is at least 1.0 Hz (R121, R170). -/
def quantizes (qen : Bool) (f : F32) : Bool := qen && leMag oneHz f

end Sys2Proof.Machine
end

