-- ==== Sys2Proof/Machine/Operands.lean ====
section
/-! DEFINITION. Operand forms: how each operation reads the field `D` (R106), and how state elements are laid out as words
(R96 to R104). Nothing is scaled or shifted on the way in. -/

namespace Sys2Proof.Machine

/-- The waveform a two-bit code names (R97). -/
def waveformOf (c : BitVec 2) : Waveform :=
  match c.toNat with
  | 0 => .sine
  | 1 => .square
  | 2 => .sawtooth
  | _ => .triangle

/-- The two-bit code of a waveform (R97). -/
def waveformCode : Waveform → BitVec 2
  | .sine => 0
  | .square => 1
  | .sawtooth => 2
  | .triangle => 3

/-- SETWAVE's operand `D[1:0]`; `D[31:2]` is ignored (R97, R120). -/
def waveOperand (d : Word) : Waveform := waveformOf (d.extractLsb' 0 2)

/-- SETFREQ's operand `f32(D)`: the whole word is the pattern (R99). -/
def freqOperand (d : Word) : F32 := d

/-- SETVOL's operand `s32(D)`, a signed integer (R9, R100). -/
def volOperand (d : Word) : Int := d.toInt

/-- SETQUANT's operand `D[0]`; `D[31:1]` is ignored (R101). -/
def quantOperand (d : Word) : Bool := d.getLsbD 0

/-- `zext_32(SEL)` (R97). -/
def waveWord (w : Waveform) : Word := (waveformCode w).setWidth 32

/-- `zext_32` of an 8-bit element: VOL (R100) and OUT (R104). -/
def byteWord (b : Byte) : Word := b.setWidth 32

/-- `zext_32(QEN)` (R101). -/
def flagWord (b : Bool) : Word := (BitVec.ofBool b).setWidth 32

/-- `NOTE <- n[7:0]`, the note number in two's complement (R103, R121). -/
def noteBits (n : Int) : Byte := BitVec.ofInt 8 n

/-- `{23'b0, NV, NOTE[7:0]}` (R103). -/
def noteWord (nv : Bool) (note : Byte) : Word := (0 : BitVec 23) ++ BitVec.ofBool nv ++ note

end Sys2Proof.Machine
end

