-- ==== Sys2Proof/Machine/WaveRom.lean ====
section
/-! DEFINITION. The wavetable ROM: four tables of 256 samples (R62). Constants: no operation writes them and reset does not touch
them (R222). -/

namespace Sys2Proof.Machine

/-- The sine table as R63 lists it: `round((sin(2 pi i / 256) + 1) * 127.5)`, halves up. -/
def sineTable : List Byte :=
  [128, 131, 134, 137, 140, 143, 146, 149, 152, 155, 158, 162, 165, 167, 170, 173] ++
  [176, 179, 182, 185, 188, 190, 193, 196, 198, 201, 203, 206, 208, 211, 213, 215] ++
  [218, 220, 222, 224, 226, 228, 230, 232, 234, 235, 237, 238, 240, 241, 243, 244] ++
  [245, 246, 248, 249, 250, 250, 251, 252, 253, 253, 254, 254, 254, 255, 255, 255] ++
  [255, 255, 255, 255, 254, 254, 254, 253, 253, 252, 251, 250, 250, 249, 248, 246] ++
  [245, 244, 243, 241, 240, 238, 237, 235, 234, 232, 230, 228, 226, 224, 222, 220] ++
  [218, 215, 213, 211, 208, 206, 203, 201, 198, 196, 193, 190, 188, 185, 182, 179] ++
  [176, 173, 170, 167, 165, 162, 158, 155, 152, 149, 146, 143, 140, 137, 134, 131] ++
  [128, 124, 121, 118, 115, 112, 109, 106, 103, 100, 97, 93, 90, 88, 85, 82] ++
  [79, 76, 73, 70, 67, 65, 62, 59, 57, 54, 52, 49, 47, 44, 42, 40] ++
  [37, 35, 33, 31, 29, 27, 25, 23, 21, 20, 18, 17, 15, 14, 12, 11] ++
  [10, 9, 7, 6, 5, 5, 4, 3, 2, 2, 1, 1, 1, 0, 0, 0] ++
  [0, 0, 0, 0, 1, 1, 1, 2, 2, 3, 4, 5, 5, 6, 7, 9] ++
  [10, 11, 12, 14, 15, 17, 18, 20, 21, 23, 25, 27, 29, 31, 33, 35] ++
  [37, 40, 42, 44, 47, 49, 52, 54, 57, 59, 62, 65, 67, 70, 73, 76] ++
  [79, 82, 85, 88, 90, 93, 97, 100, 103, 106, 109, 112, 115, 118, 121, 124]

/-- The square table (R64): 255 in the first half, 0 in the second. -/
def squareEntry (i : Nat) : Byte := if i ≤ 127 then 255 else 0

/-- The sawtooth table (R65): entry `i` is `i`. -/
def sawtoothEntry (i : Nat) : Byte := BitVec.ofNat 8 i

/-- The triangle table (R66): up by 2 from 0 to 254, down by 2 from 254 to 0. -/
def triangleEntry (i : Nat) : Byte :=
  if i ≤ 127 then BitVec.ofNat 8 (2 * i) else BitVec.ofNat 8 (2 * (255 - i))

/-- `RomRead(WT[s], i)` (R62): entry `i`, 0 to 255, of table `s`. -/
def waveRom (s : Waveform) (i : Byte) : Byte :=
  match s with
  | .sine => sineTable.getD i.toNat 0
  | .square => squareEntry i.toNat
  | .sawtooth => sawtoothEntry i.toNat
  | .triangle => triangleEntry i.toNat

end Sys2Proof.Machine
end

