-- ==== Sys2Proof/Machine/Ops.lean ====
section
/-! DEFINITION. The named operations over the state that the meanings and the clock cycle share.

There is no operation for taking an exception and none for returning from one: the block raises none (R200) and has no trap entry
and no trap return (R204, R205). -/

namespace Sys2Proof.Machine

/-- The bus word on the pins, `{cfg_write, cfg_addr, cfg_wdata}` (R93, R95). -/
def Pins.busWord (p : Pins) : BusWord := busWordOf p.cfgWrite p.cfgAddr p.cfgWdata

/-- The pins of a cycle that carries one operation and nothing else (R92, R95, R108). -/
def Pins.ofOpWord : OpWord → Pins
  | .bus w =>
    { Pins.idle with cfgValid := true, cfgWrite := fieldW w, cfgAddr := fieldA w, cfgWdata := fieldD w }
  | .tickPort t => { Pins.idle with tick := t == 1 }

/-- The pins of the cycle about to be performed. Beyond the listed cycles every pin is idle (log entry 1). -/
def State.pins (s : State) : Pins := s.inputs.headD Pins.idle

/-- The start of a cycle: its pins are taken from the list, and `cfg_rdata` is 0 unless a read drives it (R93). -/
def State.beginCycle (s : State) : State := { s with inputs := s.inputs.tail, cfgRdata := 0x00000000 }

/-- A reset cycle (R220, R221): every element of R30 takes its reset value and `cfg_rdata` is 0. The outside world goes on
(log entry 8). -/
def State.resetCycle (s : State) : State := { State.reset with inputs := s.inputs, freeCtr := s.freeCtr }

/-- The port `dac_out`: OUT of the current state, driven continuously (R94). -/
def State.dacOut (s : State) : Byte := s.out

/-- What a read of address `a` returns (R96 to R104, R130 to R138). PHASE has no address (R33). -/
def readRegister (a : Addr) (s : State) : Word :=
  match a.toNat with
  | 0 => waveWord s.sel
  | 1 => s.tgt
  | 2 => byteWord s.vol
  | 3 => flagWord s.qen
  | 4 => s.eff
  | 5 => s.inc
  | 6 => noteWord s.nv s.note
  | 7 => byteWord s.out
  | _ => 0x00000000

/-- A read: the value goes to `cfg_rdata` in this cycle and no state element changes (R72). -/
def answerRead (v : Word) (s : State) : State := { s with cfgRdata := v }

/-- The whole of SETFREQ on a requested frequency (R121): clamp, quantize where QEN asks for it, recompute the increment from
the effective frequency; five elements change together (R71). -/
def setFrequency (f : F32) (s : State) : State :=
  let t := clampF f
  if quantizes s.qen t then
    let n := noteOf t
    let e := noteFrequency n
    { s with tgt := t, eff := e, inc := incr e, note := noteBits n, nv := true }
  else
    { s with tgt := t, eff := t, inc := incr t, note := 0, nv := false }

/-- The volume clamp (R124): saturation to 0 to 255, never a wrap. -/
def clampVolume (v : Int) : Byte :=
  if v < 0 then 0 else if 255 < v then 255 else BitVec.ofInt 8 v

/-- A write to a read-only or reserved address changes nothing (R98, R126). -/
def ignoreWrite (s : State) : State := s

/-- A bus operation and a TICK in one cycle (R93): both have read the same start-of-cycle state; PHASE and OUT are the TICK's, every
other element is the bus operation's. -/
def mergeTick (bus tick : State) : State :=
  { bus with phase := tick.phase, out := tick.out, freeCtr := tick.freeCtr }

/-- The two outcomes of one cycle together (R93, R203). Neither ever stops; if one did, the cycle would. -/
def bothInCycle (bus tick : Host.Outcome State Fault Refusal) : Host.Outcome State Fault Refusal :=
  match bus, tick with
  | .next b, .next t => .next (mergeTick b t)
  | .next _, stop => stop
  | stop, _ => stop

/-- The state between power-up and the first reset cycle (R223, I1): every element of R30, and `cfg_rdata`, is a free value, not
limited by the invariants of R36 (log entry 4). -/
def State.powerUp (inputs : List Pins) : State where
  sel := waveformOf ((Config.powerUp 0).setWidth 2)
  tgt := Config.powerUp 1
  eff := Config.powerUp 2
  inc := Config.powerUp 3
  vol := (Config.powerUp 4).setWidth 8
  qen := (Config.powerUp 5).getLsbD 0
  note := (Config.powerUp 6).setWidth 8
  nv := (Config.powerUp 7).getLsbD 0
  phase := Config.powerUp 8
  out := (Config.powerUp 9).setWidth 8
  cfgRdata := Config.powerUp 10
  inputs := inputs
  freeCtr := 0

end Sys2Proof.Machine
end

