-- ==== Sys2Proof/Machine/ConfigWrite.lean ====
section
/-! DEFINITION. The configuration writes and the ignored writes (R120 to R126). None of them reads or writes PHASE or OUT. -/

namespace Sys2Proof.Machine

/-- SETWAVE (R120): `SEL <- D[1:0]`. -/
def execSetwave (d : Word) (s : State) : Host.Outcome State Fault Refusal :=
  .next { s with sel := waveOperand d }

/-- SETFREQ (R121): target, effective frequency, increment, note and NV, at one clock edge. -/
def execSetfreq (d : Word) (s : State) : Host.Outcome State Fault Refusal :=
  .next (setFrequency (freqOperand d) s)

/-- SETVOL (R124): `VOL <- s32(D)` clamped to 0 to 255. -/
def execSetvol (d : Word) (s : State) : Host.Outcome State Fault Refusal :=
  .next { s with vol := clampVolume (volOperand d) }

/-- SETQUANT (R125): `QEN <- D[0]`; the current frequency is not quantized afterwards. -/
def execSetquant (d : Word) (s : State) : Host.Outcome State Fault Refusal :=
  .next { s with qen := quantOperand d }

/-- WRIGN to a read-only address, 0x4 to 0x7 (R126): no state changes. -/
def execWrign47 (_a : Addr) (_d : Word) (s : State) : Host.Outcome State Fault Refusal :=
  .next (ignoreWrite s)

/-- WRIGN to a reserved address, 0x8 to 0xF (R126): no state changes. -/
def execWrign8F (_a : Addr) (_d : Word) (s : State) : Host.Outcome State Fault Refusal :=
  .next (ignoreWrite s)

end Sys2Proof.Machine
end

