-- ==== Sys2Proof/Machine/Emit.lean ====
section
/-! DEFINITION. TICK, the document's emitSample (R150 to R156), in the five steps of R150.

The rules state every step under the premise of R151, that PHASE and INC are non-negative and finite, and of R152, that the sum is
below 512; every state reached from a reset cycle meets both (R36). Outside, the step whose result the rules do not state yields
a free value and TICK goes on with it (log entry 5). -/

namespace Sys2Proof.Machine

/-- Step 1 of R150, the advance (R151): `RN32(PHASE + INC)`, where both are non-negative and finite and R11 states
`RN32`. -/
def phaseSum (phase inc : F32) : Option F32 :=
  if nonNegFinite phase && nonNegFinite inc then statedRn32 (magUnits phase + magUnits inc) 1 else none

/-- 256.0 in units of 2^-149: the length of a waveform table as a phase (R152). -/
def tableUnits : Nat := Config.tableSize * unitsPerOne

/-- Step 2 of R150, the wrap (R152): a sum of 256.0 or more loses 256.0 once, exactly. -/
def phaseWrap (p : F32) : Option F32 :=
  if magUnits p < tableUnits then some p else exactF32 (magUnits p - tableUnits)

/-- Steps 1 and 2 together: the phase a TICK leaves, where the rules state it. -/
def nextPhase (phase inc : F32) : Option F32 := (phaseSum phase inc).bind phaseWrap

/-- Step 3 of R150, the index (R153): `floor(p)`, where that is 0 to 255. -/
def tableIndex (p : F32) : Option Byte :=
  if nonNegFinite p && decide (floorF32 p < Config.tableSize) then some (BitVec.ofNat 8 (floorF32 p)) else none

/-- Step 3 of R150, the lookup (R154), where there is an index. No interpolation. -/
def lookup (sel : Waveform) (p : F32) : Option Byte := (tableIndex p).map (waveRom sel)

/-- Step 4 of R150, the scale (R155): `(s * VOL) >> 8`, an exact unsigned product and a shift. -/
def scale (s vol : Byte) : Byte := BitVec.ofNat 8 ((s.toNat * vol.toNat) >>> 8)

/-- `emitSample()` (R150): PHASE and OUT change, nothing else. A result the rules do not state is a free value, and the counter of
free values moves on when one was used (log entry 5). -/
def emitSample (s : State) : State :=
  let p := (nextPhase s.phase s.inc).getD (Config.freePhase s.freeCtr)
  let sample := (lookup s.sel p).getD (Config.freeSample s.freeCtr)
  let stated := (nextPhase s.phase s.inc).isSome && (lookup s.sel p).isSome
  { s with phase := p, out := scale sample s.vol, freeCtr := if stated then s.freeCtr else s.freeCtr + 1 }

/-- TICK (R150). -/
def execTick (s : State) : Host.Outcome State Fault Refusal :=
  .next (emitSample s)

end Sys2Proof.Machine
end

