-- ==== Sys2Proof/Machine/RegisterRead.lean ====
section
/-! DEFINITION. The register reads (R130 to R138). Each puts its register on `cfg_rdata` and changes no state element; the data
field of a read is ignored (R106). -/

namespace Sys2Proof.Machine

/-- RDWAVE (R130): `zext_32(SEL)`. -/
def execRdwave (_x : Word) (s : State) : Host.Outcome State Fault Refusal :=
  .next (answerRead (readRegister 0x0 s) s)

/-- RDFREQ (R131): `bits32(TGT)`. -/
def execRdfreq (_x : Word) (s : State) : Host.Outcome State Fault Refusal :=
  .next (answerRead (readRegister 0x1 s) s)

/-- RDVOL (R132): `zext_32(VOL)`. -/
def execRdvol (_x : Word) (s : State) : Host.Outcome State Fault Refusal :=
  .next (answerRead (readRegister 0x2 s) s)

/-- RDQUANT (R133): `zext_32(QEN)`. -/
def execRdquant (_x : Word) (s : State) : Host.Outcome State Fault Refusal :=
  .next (answerRead (readRegister 0x3 s) s)

/-- RDEFREQ (R134): `bits32(EFF)`. -/
def execRdefreq (_x : Word) (s : State) : Host.Outcome State Fault Refusal :=
  .next (answerRead (readRegister 0x4 s) s)

/-- RDINC (R135): `bits32(INC)`. -/
def execRdinc (_x : Word) (s : State) : Host.Outcome State Fault Refusal :=
  .next (answerRead (readRegister 0x5 s) s)

/-- RDNOTE (R136): `{23'b0, NV, NOTE}`. -/
def execRdnote (_x : Word) (s : State) : Host.Outcome State Fault Refusal :=
  .next (answerRead (readRegister 0x6 s) s)

/-- RDOUT (R137): `zext_32(OUT)`, the value the last TICK wrote. -/
def execRdout (_x : Word) (s : State) : Host.Outcome State Fault Refusal :=
  .next (answerRead (readRegister 0x7 s) s)

/-- RDRSV (R138): a reserved address reads 0. -/
def execRdrsv (_a : Addr) (_x : Word) (s : State) : Host.Outcome State Fault Refusal :=
  .next (answerRead 0x00000000 s)

end Sys2Proof.Machine
end

