-- ==== Sys2Proof/Machine/Dispatch.lean ====
section
/-! DEFINITION. One arm per instruction. -/

namespace Sys2Proof.Machine

def exec (i : Instr) (s : State) : Host.Outcome State Fault Refusal :=
  match i with
  | .setwave d => Sys2Proof.Machine.execSetwave d s
  | .setfreq d => Sys2Proof.Machine.execSetfreq d s
  | .setvol d => Sys2Proof.Machine.execSetvol d s
  | .setquant d => Sys2Proof.Machine.execSetquant d s
  | .wrign47 a d => Sys2Proof.Machine.execWrign47 a d s
  | .wrign8F a d => Sys2Proof.Machine.execWrign8F a d s
  | .rdwave x => Sys2Proof.Machine.execRdwave x s
  | .rdfreq x => Sys2Proof.Machine.execRdfreq x s
  | .rdvol x => Sys2Proof.Machine.execRdvol x s
  | .rdquant x => Sys2Proof.Machine.execRdquant x s
  | .rdefreq x => Sys2Proof.Machine.execRdefreq x s
  | .rdinc x => Sys2Proof.Machine.execRdinc x s
  | .rdnote x => Sys2Proof.Machine.execRdnote x s
  | .rdout x => Sys2Proof.Machine.execRdout x s
  | .rdrsv a x => Sys2Proof.Machine.execRdrsv a x s
  | .tick => Sys2Proof.Machine.execTick s

end Sys2Proof.Machine
end

