-- ==== Sys2Proof/Machine/Cycle.lean ====
section
/-! DEFINITION. One clock cycle (R93): reset first, else the bus transaction and the tick of the cycle, each on the start-of-cycle
state (R203). -/

namespace Sys2Proof.Machine

/-- The cycle that carries the pins `p`, from its start-of-cycle state (R93). Without `cfg_valid` the other bus pins mean nothing
(R91). -/
def cycle (p : Pins) (s : State) : Host.Outcome State Fault Refusal :=
  if p.rst then .next s.resetCycle
  else
    match p.cfgValid, p.tick with
    | false, false => .next s
    | true, false => exec (decodeBus p.busWord) s
    | false, true => exec .tick s
    | true, true => bothInCycle (exec (decodeBus p.busWord) s) (exec .tick s)

/-- The schedule with one more cycle in front: the cycle of the operation `o`. What is no operation adds no cycle (log entry 3). -/
def prependOperation (o : Except DecodeReject OpWord) (inputs : List Pins) : List Pins :=
  match o with
  | .ok w => Pins.ofOpWord w :: inputs
  | .error _ => inputs

end Sys2Proof.Machine
end

