-- ==== Sys2Proof/Machine/Step.lean ====
section
/-! DEFINITION. One step is one clock cycle (R93): the pins of the cycle are taken from the list of coming cycles. -/

namespace Sys2Proof.Machine

/-- One clock cycle, with the next pins of `inputs`. -/
def step (s : State) : Host.Outcome State Fault Refusal :=
  cycle s.pins s.beginCycle

/-- The state whose very next cycle carries exactly the operation `w`, in the opcode table's numbering. The block fetches nothing
(R6, R38): an operation comes to it on the pins of a cycle (log entry 3). -/
def State.withFetchWord (s : State) (nbits w : Nat) : State :=
  { s with inputs := prependOperation (tableWord nbits w) s.inputs }

end Sys2Proof.Machine
end

