-- ==== Sys2Proof/Machine/Assembler.lean ====
section
/-! DEFINITION. The assembler text of R108 and the pseudo-instructions of R109: a line of text stands for the pins of its clock
cycles. Text is a list of characters. Where R108 is silent on a text, log entry 11 says what is taken. -/

namespace Sys2Proof.Machine

/-- What one line stands for (R108, R109). -/
inductive AsmLine where
  /-- Nothing but a comment: no clock cycle. -/
  | blank
  /-- `nop`: a cycle with no transaction and no tick. -/
  | nop
  /-- A bus operation in a cycle of its own. -/
  | op (i : Instr)
  /-- `<operation> || tick`: a bus operation and a TICK in one cycle (R93). -/
  | opTick (i : Instr)
  /-- `tick` for k = 1, and `ticks <k>`: k cycles with one TICK each. -/
  | ticks (k : Nat)
deriving DecidableEq, Repr

/-- The pins of the cycles of a line, in order (R108, R109). -/
def AsmLine.pins : AsmLine → List Pins
  | .blank => []
  | .nop => [Pins.idle]
  | .op i => [Pins.ofOpWord (encode i)]
  | .opTick i => [{ Pins.ofOpWord (encode i) with tick := true }]
  | .ticks k => List.replicate k { Pins.idle with tick := true }

/-- Put a finished word, held in reverse, before the tokens that follow it. -/
def pushToken (word : List Char) (rest : List (List Char)) : List (List Char) :=
  if word.isEmpty then rest else word.reverse :: rest

/-- The tokens of a line: words between spaces, each comma, each `||`; `;` ends the line (R108). DESIGN CHOICE (log entry 11):
letters count the same in either case everywhere in the line, where R108 says so of mnemonics and register names only. -/
def tokensFrom (word : List Char) : List Char → List (List Char)
  | [] => pushToken word []
  | '|' :: '|' :: cs => pushToken word (['|', '|'] :: tokensFrom [] cs)
  | c :: cs =>
    if c = ';' then pushToken word []
    else if c = ',' then pushToken word ([','] :: tokensFrom [] cs)
    else if c.isWhitespace then pushToken word (tokensFrom [] cs)
    else tokensFrom (c.toLower :: word) cs

/-- The value of a digit in a base of at most sixteen. -/
def digitValue (base : Nat) (c : Char) : Option Nat :=
  let n := c.toNat
  let v := if 48 ≤ n ∧ n ≤ 57 then n - 48 else if 97 ≤ n ∧ n ≤ 102 then n - 87 else 16
  if v < base then some v else none

/-- Digits read on from a value, at least none. -/
def digitsFrom (base acc : Nat) : List Char → Option Nat
  | [] => some acc
  | c :: cs => (digitValue base c).bind fun v => digitsFrom base (acc * base + v) cs

/-- A number of at least one digit. -/
def natLiteral (base : Nat) (cs : List Char) : Option Nat :=
  if cs.isEmpty then none else digitsFrom base 0 cs

/-- An unsigned literal: `0x` and hexadecimal digits, or decimal digits (R108). -/
def unsignedLiteral : List Char → Option Nat
  | '0' :: 'x' :: cs => natLiteral 16 cs
  | cs => natLiteral 10 cs

/-- A 32-bit value `<v>`: a hexadecimal literal, or a decimal integer, a negative one in two's complement (R108). DESIGN CHOICE (log
entry 11): a leading `+` is refused. -/
def wordLiteral : List Char → Option Word
  | '-' :: cs => (natLiteral 10 cs).bind fun n => if n ≤ 2 ^ 31 then some (BitVec.ofInt 32 (-(n : Int))) else none
  | cs => (unsignedLiteral cs).bind fun n => if n < 2 ^ 32 then some (BitVec.ofNat 32 n) else none

/-- `bits(RN32(literal))` for the non-negative literal `digits * 10^exponent` (R108), where R11 states `RN32`: below `2^128`. -/
def decimalPattern (digits : Nat) (exponent : Int) : Option F32 :=
  statedRn32 (digits * 10 ^ exponent.toNat * unitsPerOne) (10 ^ (-exponent).toNat)

/-- The exponent part of a literal: a decimal integer with an optional sign, `+` included (DESIGN CHOICE, log entry 11). -/
def exponentLiteral : List Char → Option Int
  | '-' :: cs => (natLiteral 10 cs).map fun n => -(n : Int)
  | '+' :: cs => (natLiteral 10 cs).map fun n => (n : Int)
  | cs => (natLiteral 10 cs).map fun n => (n : Int)

/-- A literal with a decimal point or an exponent, without its sign (R108). -/
def unsignedDecimal (cs : List Char) : Option F32 :=
  let mantissa := cs.takeWhile (· != 'e')
  let tail := cs.drop mantissa.length
  let whole := mantissa.takeWhile (· != '.')
  let part := (mantissa.drop whole.length).drop 1
  let exponent := if tail.isEmpty then some 0 else exponentLiteral (tail.drop 1)
  (natLiteral 10 (whole ++ part)).bind fun digits =>
    exponent.bind fun e => decimalPattern digits (e - part.length)

/-- The operand of `setfreq`: one of the names, a literal with a point or an exponent, or a plain 32-bit value (R108). A negative
literal has the sign bit set. DESIGN CHOICE (log entry 11): a leading `+` is refused. -/
def freqLiteral (cs : List Char) : Option Word :=
  if cs = "nan".toList then some 0x7FC00000
  else if cs = "inf".toList then some 0x7F800000
  else if cs = "-inf".toList then some 0xFF800000
  else
    match cs with
    | '0' :: 'x' :: _ => wordLiteral cs
    | '-' :: m => if m.contains '.' || m.contains 'e' then (unsignedDecimal m).map (· ||| 0x80000000) else wordLiteral cs
    | _ => if cs.contains '.' || cs.contains 'e' then unsignedDecimal cs else wordLiteral cs

/-- The operand of `setwave`: a name of R109, or a plain 32-bit value. -/
def waveLiteral (cs : List Char) : Option Word :=
  if cs = "sine".toList then some 0
  else if cs = "square".toList then some 1
  else if cs = "saw".toList then some 2
  else if cs = "tri".toList then some 3
  else wordLiteral cs

/-- The registers by name, with their addresses (R96). -/
def registerNames : List (List Char × Nat) := [
  ("wave".toList, 0), ("freq".toList, 1), ("vol".toList, 2), ("quant".toList, 3),
  ("efreq".toList, 4), ("inc".toList, 5), ("note".toList, 6), ("out".toList, 7)]

/-- The write operation of the register at an address, with its operand's text (R96, R109). -/
def writeLine (a : Nat) (v : List Char) : Option Instr :=
  match a with
  | 0 => (waveLiteral v).map .setwave
  | 1 => (freqLiteral v).map .setfreq
  | 2 => (wordLiteral v).map .setvol
  | 3 => (wordLiteral v).map .setquant
  | n => if n < 16 then (wordLiteral v).map (decodeWrite (BitVec.ofNat 4 n)) else none

/-- The read operation of the register at an address; its data field is 0 (R96, R108). -/
def readLine (a : Nat) : Option Instr :=
  if a < 16 then some (decodeRead (BitVec.ofNat 4 a) 0) else none

/-- The bus operation a list of tokens stands for (R108, R109). -/
def busLine (tokens : List (List Char)) : Option Instr :=
  match tokens with
  | [m] => (registerNames.find? fun r => "rd".toList ++ r.1 == m).bind fun r => readLine r.2
  | [m, v] =>
    if m = "setwave".toList then writeLine 0 v
    else if m = "setfreq".toList then writeLine 1 v
    else if m = "setvol".toList then writeLine 2 v
    else if m = "setquant".toList then writeLine 3 v
    else if m = "quant".toList then
      if v = "on".toList then some (.setquant 1) else if v = "off".toList then some (.setquant 0) else none
    else if m = "rd".toList then (registerNames.lookup v).bind readLine
    else if m = "rdrsv".toList then (unsignedLiteral v).bind fun a => if 8 ≤ a then readLine a else none
    else none
  | [m, r, [','], v] =>
    if m = "wrign".toList then (unsignedLiteral r).bind fun a => if 4 ≤ a then writeLine a v else none
    else if m = "wr".toList then (registerNames.lookup r).bind fun a => writeLine a v
    else none
  | _ => none

/-- What a list of tokens stands for (R108, R109). DESIGN CHOICE (log entry 11): R109 does not say how the `k` of `ticks <k>` is
written; it is read in decimal or, with `0x`, in hexadecimal. -/
def asmLineOf (tokens : List (List Char)) : Option AsmLine :=
  if tokens = [] then some .blank
  else if tokens = ["nop".toList] then some .nop
  else if tokens = ["tick".toList] then some (.ticks 1)
  else if tokens.drop (tokens.length - 2) = ["||".toList, "tick".toList] then
    (busLine (tokens.take (tokens.length - 2))).map .opTick
  else
    match tokens with
    | [m, k] => if m = "ticks".toList then (unsignedLiteral k).map .ticks else (busLine tokens).map .op
    | _ => (busLine tokens).map .op

/-- The pins of the cycles of one line of text (R108). -/
def assembleLine (text : List Char) : Option (List Pins) := (asmLineOf (tokensFrom [] text)).map AsmLine.pins

/-- A 32-bit value as a hexadecimal literal of eight digits (R108). -/
def wordText (d : Word) : List Char :=
  '0' :: 'x' :: [7, 6, 5, 4, 3, 2, 1, 0].map fun k => Nat.digitChar (d.toNat / 16 ^ k % 16)

/-- An address as a hexadecimal literal of one digit (R108). -/
def addrText (a : Addr) : List Char := ['0', 'x', Nat.digitChar a.toNat]

/-- The canonical form of an operation (R108). A read's ignored data has no place in it. -/
def asmText : Instr → List Char
  | .setwave d => "setwave ".toList ++ wordText d
  | .setfreq d => "setfreq ".toList ++ wordText d
  | .setvol d => "setvol ".toList ++ wordText d
  | .setquant d => "setquant ".toList ++ wordText d
  | .wrign47 a d => "wrign ".toList ++ addrText a ++ ", ".toList ++ wordText d
  | .wrign8F a d => "wrign ".toList ++ addrText a ++ ", ".toList ++ wordText d
  | .rdwave _ => "rdwave".toList
  | .rdfreq _ => "rdfreq".toList
  | .rdvol _ => "rdvol".toList
  | .rdquant _ => "rdquant".toList
  | .rdefreq _ => "rdefreq".toList
  | .rdinc _ => "rdinc".toList
  | .rdnote _ => "rdnote".toList
  | .rdout _ => "rdout".toList
  | .rdrsv a _ => "rdrsv ".toList ++ addrText a
  | .tick => "tick".toList

/-- The instruction with the data field 0 where it is a read, as R108 gives the words of reads. -/
def readDataZero : Instr → Instr
  | .rdwave _ => .rdwave 0
  | .rdfreq _ => .rdfreq 0
  | .rdvol _ => .rdvol 0
  | .rdquant _ => .rdquant 0
  | .rdefreq _ => .rdefreq 0
  | .rdinc _ => .rdinc 0
  | .rdnote _ => .rdnote 0
  | .rdout _ => .rdout 0
  | .rdrsv a _ => .rdrsv a 0
  | .setwave d => .setwave d
  | .setfreq d => .setfreq d
  | .setvol d => .setvol d
  | .setquant d => .setquant d
  | .wrign47 a d => .wrign47 a d
  | .wrign8F a d => .wrign8F a d
  | .tick => .tick

/-- The pins of the cycles of a program, line after line (R108). -/
def assemble : List (List Char) → Option (List Pins)
  | [] => some []
  | l :: ls => (assembleLine l).bind fun p => (assemble ls).map (p ++ ·)

end Sys2Proof.Machine
end

