-- ==== Sys2Proof/Safety.lean ====
section
/-! DEFINITION. What holds of the block in every state that a run from a reset cycle reaches: the legal values of R30 and the
invariants of R36; and what it is for a state to be reached. -/

namespace Sys2Proof.Machine

/-- `+0 or a finite positive value` (R30): no sign, so neither negative nor minus zero, and no infinity or NaN. -/
abbrev plusZeroOrPositive (x : F32) : Prop := signBit x = false ∧ isFinite x = true

/-- The invariants of R36, item by item. -/
structure State.Inv (s : State) : Prop where
  /-- Item 1. -/
  volume : s.vol.toNat ≤ 255
  /-- Item 2: PHASE in [0, 256), never NaN, infinite or minus zero. -/
  phase_number : plusZeroOrPositive s.phase
  phase_below_table : magUnits s.phase < 256 * unitsPerOne
  /-- Item 3. -/
  increment : s.inc = incr s.eff
  /-- Item 4. -/
  target_number : plusZeroOrPositive s.tgt
  target_clamped : leMag s.tgt fMax = true
  /-- Item 5. -/
  unquantized : s.nv = false → s.eff = s.tgt ∧ s.note = 0
  /-- Item 6. -/
  quantized : s.nv = true →
    leMag oneHz s.tgt = true ∧ s.note = noteBits (noteOf s.tgt) ∧ s.eff = noteFrequency s.note.toInt
  /-- Item 7. -/
  increment_number : plusZeroOrPositive s.inc
  increment_below : magUnits s.inc < 130 * unitsPerOne
  /-- Item 8. -/
  output : s.out.toNat ≤ 254

/-- The legal values of R30's table. SEL, VOL, QEN and NV have no illegal value. -/
structure State.Legal (s : State) : Prop where
  target : plusZeroOrPositive s.tgt ∧ leMag s.tgt fMax = true
  /-- At most 11175.3037109375 = 0x462E9D37. -/
  effective : plusZeroOrPositive s.eff ∧ leMag s.eff 0x462E9D37 = true
  /-- At most 129.74502563476562 = 0x4301BEBA. -/
  increment : plusZeroOrPositive s.inc ∧ leMag s.inc 0x4301BEBA = true
  note_quantized : s.nv = true → -36 ≤ s.note.toInt ∧ s.note.toInt ≤ 125
  note_unquantized : s.nv = false → s.note = 0
  phase : plusZeroOrPositive s.phase ∧ magUnits s.phase < 256 * unitsPerOne
  output : s.out.toNat ≤ 254

/-- The states that runs reach: what one reset cycle leaves, from any state whatsoever (R223), and from there any number of
cycles with any pins. -/
inductive State.Reached : State → Prop where
  | afterReset (s : State) (h : s.pins.rst = true) (t : State) (ht : step s = .next t) : State.Reached t
  | afterStep (s : State) (pins : List Pins) (hs : State.Reached s) (t : State)
      (ht : step { s with inputs := pins } = .next t) : State.Reached t

end Sys2Proof.Machine
end

