-- ==== Sys2Proof/Certificates/Slice0/Obligations.lean ====
section
/-! DEFINITION. The statements about the oscillator block, for the provers. -/

open Sys2Proof Sys2Proof.Machine

/-! ## Encoding -/

/-- Decoding the encoding of a well-formed instruction gives it back, with every operand at every value. -/
def Obligations.DecodeEncodeAgree : Prop :=
  ∀ i : Instr, i.wellFormed = true → decode (encode i) = .ok i

/-- R105: every 37-bit word names exactly one operation, and it is well formed. That its encoding is the word, bit by bit, is for a read
the model's choice (log entry 9, DESIGN CHOICE: a read keeps its ignored data bits, where R106 lets `D` be ignored). -/
def Obligations.EncodeDecodeAgree : Prop :=
  ∀ w : BusWord, (decodeBus w).wellFormed = true ∧ encode (decodeBus w) = .bus w

/-- R110: the match and mask of each row, written out, against the decoder; a word belongs to exactly one row. -/
def Obligations.DecodeFollowsMatchAndMask : Prop :=
  (∀ w : BusWord,
    (w &&& 0x1F00000000 = 0x1000000000 ↔ ∃ d, decodeBus w = .setwave d) ∧
    (w &&& 0x1F00000000 = 0x1100000000 ↔ ∃ d, decodeBus w = .setfreq d) ∧
    (w &&& 0x1F00000000 = 0x1200000000 ↔ ∃ d, decodeBus w = .setvol d) ∧
    (w &&& 0x1F00000000 = 0x1300000000 ↔ ∃ d, decodeBus w = .setquant d) ∧
    (w &&& 0x1C00000000 = 0x1400000000 ↔ ∃ a d, decodeBus w = .wrign47 a d) ∧
    (w &&& 0x1800000000 = 0x1800000000 ↔ ∃ a d, decodeBus w = .wrign8F a d) ∧
    (w &&& 0x1F00000000 = 0x0000000000 ↔ ∃ x, decodeBus w = .rdwave x) ∧
    (w &&& 0x1F00000000 = 0x0100000000 ↔ ∃ x, decodeBus w = .rdfreq x) ∧
    (w &&& 0x1F00000000 = 0x0200000000 ↔ ∃ x, decodeBus w = .rdvol x) ∧
    (w &&& 0x1F00000000 = 0x0300000000 ↔ ∃ x, decodeBus w = .rdquant x) ∧
    (w &&& 0x1F00000000 = 0x0400000000 ↔ ∃ x, decodeBus w = .rdefreq x) ∧
    (w &&& 0x1F00000000 = 0x0500000000 ↔ ∃ x, decodeBus w = .rdinc x) ∧
    (w &&& 0x1F00000000 = 0x0600000000 ↔ ∃ x, decodeBus w = .rdnote x) ∧
    (w &&& 0x1F00000000 = 0x0700000000 ↔ ∃ x, decodeBus w = .rdout x) ∧
    (w &&& 0x1800000000 = 0x0800000000 ↔ ∃ a x, decodeBus w = .rdrsv a x) ∧
    (∃ r ∈ opcodeTable, rowMatches r w = true ∧ r.mnemonic = mnemonic (decodeBus w) ∧
      ∀ q ∈ opcodeTable, rowMatches q w = true → q = r)) ∧
  decode (.tickPort 1) = .ok .tick

/-- Words written out in the spec's test vectors (95_test_vectors.md) and the operations they stand for there. -/
def Obligations.VectorWordsDecode : Prop :=
  decodeBus 0x10FFFFFFFF = .setwave 0xFFFFFFFF ∧ decodeBus 0x1143E90000 = .setfreq 0x43E90000 ∧
  decodeBus 0x12FFFFFFF6 = .setvol 0xFFFFFFF6 ∧ decodeBus 0x1300000003 = .setquant 3 ∧
  decodeBus 0x1600000045 = .wrign47 6 0x45 ∧ decodeBus 0x1FFFFFFFFF = .wrign8F 15 0xFFFFFFFF ∧
  decodeBus 0x0000000000 = .rdwave 0 ∧ decodeBus 0x0100000000 = .rdfreq 0 ∧ decodeBus 0x0200000000 = .rdvol 0 ∧
  decodeBus 0x0300000000 = .rdquant 0 ∧ decodeBus 0x0400000000 = .rdefreq 0 ∧ decodeBus 0x0500000000 = .rdinc 0 ∧
  decodeBus 0x0600000000 = .rdnote 0 ∧ decodeBus 0x0712345678 = .rdout 0x12345678 ∧
  decodeBus 0x0F00000000 = .rdrsv 15 0 ∧ decode (.tickPort 1) = .ok .tick

/-! ## The clock cycle -/

/-- A step performs the operation decoded from the cycle's pins, on the start-of-cycle state (R93). The model's choices in it: the pins
are taken from a list in State, idle where it is empty (log entry 1, DESIGN CHOICE), `cfg_rdata` is recorded in State and starts the
cycle at 0 (log entry 2, DESIGN CHOICE), and a bus operation and a TICK of one cycle are joined by `bothInCycle` (log entry 7,
DEDUCED). -/
def Obligations.StepRunsTheDecodedOperation : Prop :=
  ∀ s : State,
    s.beginCycle = { s with inputs := s.inputs.tail, cfgRdata := 0 } ∧
    (s.pins.rst = false → s.pins.cfgValid = true → s.pins.tick = false →
      ∀ i, decode (.bus s.pins.busWord) = .ok i → step s = exec i s.beginCycle) ∧
    (s.pins.rst = false → s.pins.cfgValid = false → s.pins.tick = true → step s = exec .tick s.beginCycle) ∧
    (s.pins.rst = false → s.pins.cfgValid = true → s.pins.tick = true →
      ∀ i, decode (.bus s.pins.busWord) = .ok i →
        step s = bothInCycle (exec i s.beginCycle) (exec .tick s.beginCycle)) ∧
    (s.pins.rst = false → s.pins.cfgValid = false → s.pins.tick = false → step s = .next s.beginCycle)

/-- The model's convention of log entry 3: the word placed by `withFetchWord` is the operation of the very next cycle. -/
def Obligations.PlacedWordRunsNext : Prop :=
  ∀ (s : State) (nbits w : Nat) (i : Instr), decodeTableWord nbits w = some i →
    step (s.withFetchWord nbits w) = exec i { s with cfgRdata := 0 }

/-- R93, whole: reset drops everything; else the write of the cycle changes only SEL to NV, the tick only PHASE and OUT, a read
only `cfg_rdata`, each from the start-of-cycle state. The last field is the model's counter of free values (log entry 5). -/
def Obligations.OneClockCycle : Prop :=
  ∀ s : State,
    (s.pins.rst = true → step s = .next { State.reset with inputs := s.inputs.tail, freeCtr := s.freeCtr }) ∧
    (s.pins.rst = false →
      ∃ w k t : State,
        (if s.pins.cfgValid && s.pins.cfgWrite then exec (decodeWrite s.pins.cfgAddr s.pins.cfgWdata) s.beginCycle = .next w
          else w = s.beginCycle) ∧
        (if s.pins.tick then exec .tick s.beginCycle = .next k else k = s.beginCycle) ∧
        step s = .next t ∧
        t.sel = w.sel ∧ t.tgt = w.tgt ∧ t.eff = w.eff ∧ t.inc = w.inc ∧ t.vol = w.vol ∧ t.qen = w.qen ∧ t.note = w.note ∧
        t.nv = w.nv ∧
        t.phase = k.phase ∧ t.out = k.out ∧ t.freeCtr = k.freeCtr ∧
        t.cfgRdata = (if s.pins.cfgValid && !s.pins.cfgWrite then readRegister s.pins.cfgAddr s else 0) ∧
        t.inputs = s.inputs.tail)

/-- R220 and R221: whatever the state before, a cycle with `rst = 1` leaves every element at its reset value, whatever else the
cycle carries; every register then reads 0; and the next cycle with `rst = 1` keeps that state. -/
def Obligations.ResetCycle : Prop :=
  ∀ s : State, s.pins.rst = true →
    ∃ t, step s = .next t ∧
      t.sel = .sine ∧ t.tgt = 0 ∧ t.eff = 0 ∧ t.inc = 0 ∧ t.vol = 0 ∧ t.qen = false ∧ t.note = 0 ∧ t.nv = false ∧
      t.phase = 0 ∧ t.out = 0 ∧ t.dacOut = 0 ∧ t.cfgRdata = 0 ∧
      (∀ a, readRegister a t = 0) ∧ t.Inv ∧
      (t.pins.rst = true → step t = .next { t with inputs := t.inputs.tail })

/-- R92: holding `tick` for k cycles performs k TICKs, one a cycle. -/
def Obligations.HeldTickPerformsThatManyTicks : Prop :=
  ∀ (k : Nat) (s : State) (rest : List Pins),
    s.inputs = List.replicate (k + 1) { Pins.idle with tick := true } ++ rest →
    Host.Core.run Sys2Proof.core (k + 1) s = .next { emitSample^[k + 1] { s with cfgRdata := 0 } with inputs := rest }

/-- No operation and no cycle ever stops (R98, R159, R200), in any state, reached or not. -/
def Obligations.EveryCycleCompletes : Prop :=
  (∀ (i : Instr) (s : State), ∃ t, exec i s = .next t) ∧ ∀ s : State, ∃ t, step s = .next t

/-- R94: the port `dac_out` is OUT, and changes only at the end of a cycle that performed a TICK or a reset. -/
def Obligations.DacOutChangesOnlyByTickOrReset : Prop :=
  (∀ s : State, s.dacOut = s.out) ∧
  ∀ s t : State, step s = .next t → s.pins.rst = false → s.pins.tick = false → t.dacOut = s.dacOut

/-! ## Configuration writes -/

/-- SETWAVE (R120): SEL is the variant that R97 gives the code `D[1:0]`, nothing else changes. -/
def Obligations.SetwaveResult : Prop :=
  ∀ (d : Word) (s : State),
    (d.extractLsb' 0 2 = 0 → exec (.setwave d) s = .next { s with sel := .sine }) ∧
    (d.extractLsb' 0 2 = 1 → exec (.setwave d) s = .next { s with sel := .square }) ∧
    (d.extractLsb' 0 2 = 2 → exec (.setwave d) s = .next { s with sel := .sawtooth }) ∧
    (d.extractLsb' 0 2 = 3 → exec (.setwave d) s = .next { s with sel := .triangle })

/-- SETFREQ, as the pseudocode of R121 gives it: target, effective frequency, increment, note and NV; nothing else changes. For subnormal
requests the pseudocode and corner case (e) of R121 differ; there the increment is the pseudocode's, which is the model's choice (log
entry 15, DEDUCED). -/
def Obligations.SetfreqResult : Prop :=
  ∀ (d : Word) (s : State),
    (s.qen = true ∧ leMag oneHz (clampF d) = true →
      exec (.setfreq d) s = .next { s with
        tgt := clampF d
        eff := noteFrequency (noteOf (clampF d))
        inc := incr (noteFrequency (noteOf (clampF d)))
        note := BitVec.ofInt 8 (noteOf (clampF d))
        nv := true }) ∧
    (¬ (s.qen = true ∧ leMag oneHz (clampF d) = true) →
      exec (.setfreq d) s = .next { s with tgt := clampF d, eff := clampF d, inc := incr (clampF d), note := 0, nv := false })

/-- The clamp of R122 on every binary32 pattern, in terms of the number it encodes; and the bounds R122 draws from it: whatever is
requested, EFF is at most 11175.3037109375 and INC at most 129.74502563476562. -/
def Obligations.FrequencyClamp : Prop :=
  f32Value fMax = 11025 ∧
  (∀ x : F32,
    (isNaN x = true → clampF x = 0) ∧
    (isInf x = true → signBit x = true → clampF x = 0) ∧
    (isInf x = true → signBit x = false → clampF x = fMax) ∧
    (isFinite x = true → f32Value x ≤ 0 → clampF x = 0) ∧
    (isFinite x = true → 11025 < f32Value x → clampF x = fMax) ∧
    (isFinite x = true → 0 < f32Value x → f32Value x ≤ 11025 → clampF x = x) ∧
    signBit (clampF x) = false ∧ isFinite (clampF x) = true ∧ f32Value (clampF x) ≤ 11025) ∧
  ∀ (d : Word) (s t : State), exec (.setfreq d) s = .next t →
    f32Value t.eff ≤ f32Value 0x462E9D37 ∧ f32Value t.inc ≤ f32Value 0x4301BEBA ∧ f32Value t.inc < 130

/-- R123: `incr(e)` is `e * 256 / 22050` rounded once, the product with 256 being a binary32 value; and `incr(+0) = +0`. For every
effective frequency the block can hold. -/
def Obligations.IncrementIsRoundedOnce : Prop :=
  incr 0 = 0 ∧
  ∀ e : F32, plusZeroOrPositive e → leMag e 0x462E9D37 = true →
    IsRN32 ((f32Value e : ℝ) * 256 / 22050) (incr e) ∧
    ∃ m : F32, plusZeroOrPositive m ∧ f32Value m = f32Value e * 256

/-- SETVOL (R124): VOL is `s32(D)` clamped to 0 to 255, never wrapped; nothing else changes. -/
def Obligations.SetvolSaturates : Prop :=
  ∀ (d : Word) (s : State), ∃ v : Byte,
    (v.toNat : ℤ) = max 0 (min 255 d.toInt) ∧ exec (.setvol d) s = .next { s with vol := v }

/-- SETQUANT (R125): QEN is `D[0]`; the effective frequency, the increment, the note and everything else keep their values. -/
def Obligations.SetquantResult : Prop :=
  ∀ (d : Word) (s : State), exec (.setquant d) s = .next { s with qen := d.getLsbD 0 }

/-- WRIGN (R126): no state changes, whatever the address and the data, and later reads return what they returned. -/
def Obligations.IgnoredWritesChangeNothing : Prop :=
  ∀ (a : Addr) (d : Word) (s : State),
    exec (.wrign47 a d) s = .next s ∧ exec (.wrign8F a d) s = .next s

/-! ## Register reads -/

/-- RDWAVE, RDVOL and RDQUANT (R130, R132, R133): the element zero-extended, nothing else changes; the results are at most 3, 255
and 1. RDWAVE returns R97's code of the waveform. -/
def Obligations.ReadsOfConfiguration : Prop :=
  ∀ (x : Word) (s : State), ∃ w v q : Word,
    exec (.rdwave x) s = .next { s with cfgRdata := w } ∧ w.toNat ≤ 3 ∧
    (s.sel = .sine → w = 0) ∧ (s.sel = .square → w = 1) ∧ (s.sel = .sawtooth → w = 2) ∧ (s.sel = .triangle → w = 3) ∧
    exec (.rdvol x) s = .next { s with cfgRdata := v } ∧ v.toNat = s.vol.toNat ∧ v.toNat ≤ 255 ∧
    exec (.rdquant x) s = .next { s with cfgRdata := q } ∧ q.toNat = s.qen.toNat

/-- RDFREQ, RDEFREQ and RDINC (R131, R134, R135) return the pattern; RDFREQ never returns a NaN, an infinity or minus zero in a state
of the invariants. -/
def Obligations.ReadsOfFrequencies : Prop :=
  (∀ (x : Word) (s : State),
    exec (.rdfreq x) s = .next { s with cfgRdata := s.tgt } ∧
    exec (.rdefreq x) s = .next { s with cfgRdata := s.eff } ∧
    exec (.rdinc x) s = .next { s with cfgRdata := s.inc }) ∧
  ∀ (x : Word) (s : State), s.Inv → ∃ t, exec (.rdfreq x) s = .next t ∧
    isNaN t.cfgRdata = false ∧ isInf t.cfgRdata = false ∧ t.cfgRdata ≠ 0x80000000

/-- RDNOTE (R136, R103): bit 8 is NV, bits 7 to 0 are NOTE, bits 31 to 9 are 0, and the sign extension of the low byte is the note
number; with NV = 0 the read is 0 in a state of the invariants. -/
def Obligations.ReadOfNote : Prop :=
  ∀ (x : Word) (s : State), ∃ t, exec (.rdnote x) s = .next t ∧ t = { s with cfgRdata := t.cfgRdata } ∧
    t.cfgRdata.extractLsb' 0 8 = s.note ∧ t.cfgRdata.getLsbD 8 = s.nv ∧ t.cfgRdata.extractLsb' 9 23 = 0 ∧
    ((t.cfgRdata.extractLsb' 0 8).signExtend 32).toInt = s.note.toInt ∧
    (s.Inv → s.nv = false → t.cfgRdata = 0)

/-- RDOUT (R137): OUT zero-extended; in the cycle of a TICK it is the value from before that TICK. -/
def Obligations.ReadOfOutput : Prop :=
  (∀ (x : Word) (s : State), exec (.rdout x) s = .next { s with cfgRdata := s.out.setWidth 32 }) ∧
  ∀ (x : Word) (s : State) (rest : List Pins),
    s.inputs = { Pins.ofOpWord (encode (.rdout x)) with tick := true } :: rest →
    ∃ t k, step s = .next t ∧ t.cfgRdata = s.out.setWidth 32 ∧
      exec .tick s.beginCycle = .next k ∧ t.out = k.out ∧ t.phase = k.phase

/-- RDRSV (R138): 0, for every reserved address. -/
def Obligations.ReservedReadsReturnZero : Prop :=
  ∀ (a : Addr) (x : Word) (s : State), exec (.rdrsv a x) s = .next { s with cfgRdata := 0 }

/-- R72: reads change no state element; writes to 0x4 to 0xF change nothing; every write done twice is as done once. -/
def Obligations.ReadsAreSilentAndWritesIdempotent : Prop :=
  ∀ (w : BusWord) (s : State), ∃ t, exec (decodeBus w) s = .next t ∧
    (fieldW w = false → t = { s with cfgRdata := t.cfgRdata }) ∧
    (fieldW w = true → 4 ≤ (fieldA w).toNat → t = s) ∧
    (fieldW w = true → exec (decodeBus w) t = .next t)

/-! ## Who writes and reads what -/

/-- R30, the column `written by`: an element that an operation changes is one the table gives it. The last three clauses are about the
model's own fields and are the model's choice: the counter of free values (log entry 5), the record of `cfg_rdata` (log entry 2)
and the coming pins (log entry 1), each DESIGN CHOICE. -/
def Obligations.OnlyTheNamedOperationsWrite : Prop :=
  ∀ (i : Instr) (s t : State), i.wellFormed = true → exec i s = .next t →
    (t.sel ≠ s.sel → ∃ d, i = .setwave d) ∧
    (t.tgt ≠ s.tgt → ∃ d, i = .setfreq d) ∧
    (t.eff ≠ s.eff → ∃ d, i = .setfreq d) ∧
    (t.inc ≠ s.inc → ∃ d, i = .setfreq d) ∧
    (t.vol ≠ s.vol → ∃ d, i = .setvol d) ∧
    (t.qen ≠ s.qen → ∃ d, i = .setquant d) ∧
    (t.note ≠ s.note → ∃ d, i = .setfreq d) ∧
    (t.nv ≠ s.nv → ∃ d, i = .setfreq d) ∧
    (t.phase ≠ s.phase → i = .tick) ∧
    (t.out ≠ s.out → i = .tick) ∧
    (t.freeCtr ≠ s.freeCtr → i = .tick) ∧
    (t.cfgRdata ≠ s.cfgRdata → ∃ a x, i = decodeRead a x) ∧
    t.inputs = s.inputs

/-- R33: no bus transaction reads or writes PHASE: with any other PHASE it does the same and leaves that PHASE. In a whole cycle
only a TICK or a reset changes it. -/
def Obligations.PhaseIsOutOfReachOfTheBus : Prop :=
  (∀ (w : BusWord) (s t : State) (p : F32), exec (decodeBus w) s = .next t →
    t.phase = s.phase ∧ exec (decodeBus w) { s with phase := p } = .next { t with phase := p }) ∧
  ∀ s t : State, step s = .next t → s.pins.rst = false → s.pins.tick = false → t.phase = s.phase

/-- R158: the tick's only inputs are PHASE, INC, SEL and VOL. Premise: PHASE and INC as R36 has them in every reached state, so that
no free value of log entry 5 is used. -/
def Obligations.TickReadsFourElements : Prop :=
  ∀ s u : State, plusZeroOrPositive s.phase → magUnits s.phase < 256 * unitsPerOne → plusZeroOrPositive s.inc →
    magUnits s.inc < 256 * unitsPerOne →
    u.phase = s.phase → u.inc = s.inc → u.sel = s.sel → u.vol = s.vol →
    ∃ t v, exec .tick s = .next t ∧ exec .tick u = .next v ∧ v.phase = t.phase ∧ v.out = t.out

/-! ## TICK -/

/-- TICK (R150 to R153, R155), in numbers: the sum rounded once; 256.0 taken off once, exactly, where the sum has reached it; the phase
in [0, 256); the sample at the floor of the new phase; the output `(s * VOL) >> 8`; nothing else changes. For PHASE in [0, 256)
and INC in [0, 256), as in every reached state (R36). -/
def Obligations.TickResult : Prop :=
  ∀ s : State, plusZeroOrPositive s.phase → f32Value s.phase < 256 → plusZeroOrPositive s.inc → f32Value s.inc < 256 →
    ∃ (sum p : F32) (i o : Byte),
      IsRN32 ((f32Value s.phase : ℝ) + f32Value s.inc) sum ∧
      (f32Value sum < 256 → p = sum) ∧
      (256 ≤ f32Value sum → f32Value p = f32Value sum - 256) ∧
      plusZeroOrPositive p ∧ f32Value p < 256 ∧
      (i.toNat : ℤ) = ⌊f32Value p⌋ ∧
      o.toNat = (waveRom s.sel i).toNat * s.vol.toNat / 256 ∧
      exec .tick s = .next { s with phase := p, out := o }

/-- TICK in any state whatsoever completes, changes only PHASE, OUT and the counter of free values (the model's, log entry 5), keeps
OUT at most 254, and is silent at volume 0. -/
def Obligations.TickAlwaysCompletes : Prop :=
  ∀ s : State, ∃ t, exec .tick s = .next t ∧
    t = { s with phase := t.phase, out := t.out, freeCtr := t.freeCtr } ∧
    t.out.toNat ≤ 254 ∧ (s.vol = 0 → t.out = 0) ∧ s.freeCtr ≤ t.freeCtr

/-- The scale step (R155): `floor(s * v / 256)`, in 0 to 254, 0 where either factor is 0, non-decreasing in each factor; and the
rule's examples. -/
def Obligations.ScaleStep : Prop :=
  (∀ s v : Byte, (scale s v).toNat = s.toNat * v.toNat / 256 ∧ (scale s v).toNat ≤ 254 ∧ scale s 0 = 0 ∧ scale 0 v = 0) ∧
  (∀ s v w : Byte, v.toNat ≤ w.toNat → (scale s v).toNat ≤ (scale s w).toNat) ∧
  (∀ s r v : Byte, s.toNat ≤ r.toNat → (scale s v).toNat ≤ (scale r v).toNat) ∧
  scale 255 255 = 254 ∧ scale 1 255 = 0 ∧ scale 128 128 = 64 ∧ scale 255 128 = 127

/-- The square, sawtooth and triangle tables (R64, R65, R66), their shape included. -/
def Obligations.WaveformShapes : Prop :=
  (∀ i : Byte, (waveRom .square i).toNat = if i.toNat ≤ 127 then 255 else 0) ∧
  (∀ i : Byte, (waveRom .sawtooth i).toNat = i.toNat) ∧
  (∀ i : Byte, (waveRom .triangle i).toNat = if i.toNat ≤ 127 then 2 * i.toNat else 2 * (255 - i.toNat)) ∧
  (∀ i : Byte, waveRom .triangle i = waveRom .triangle (255 - i)) ∧
  (∀ i : Byte, (waveRom .triangle i).toNat ≤ 254) ∧ waveRom .triangle 127 = 254 ∧ waveRom .triangle 128 = 254

/-- The sine table (R63) against its formula in exact real arithmetic: `round((sin(2 pi i / 256) + 1) * 127.5)`, halves up. -/
def Obligations.SineTableMatchesItsFormula : Prop :=
  ∀ i : Byte, ((waveRom .sine i).toNat : ℤ) = ⌊(Real.sin (2 * Real.pi * i.toNat / 256) + 1) * 127.5 + 1 / 2⌋

/-- R157: with INC held at a whole multiple of 2^-15 below 256, the phase after k TICKs from 0 is exactly `k * INC mod 256`. -/
def Obligations.PhaseIsExactForDyadicIncrements : Prop :=
  ∀ (k m : Nat) (s : State), s.phase = 0 → plusZeroOrPositive s.inc → f32Value s.inc = m / 2 ^ 15 → f32Value s.inc < 256 →
    f32Value (emitSample^[k] s).phase = ((k * m % (256 * 2 ^ 15) : Nat) : ℚ) / 2 ^ 15

/-! ## The numbers and the quantizer -/

/-- The machine's rounding is the RN32 of R11, for every quotient below `2^128`. Between the largest finite value and `2^128` it is the
model's choice (log entry 13, DEDUCED) that no infinity counts as a value nearest to a real. -/
def Obligations.RoundingIsNearestEven : Prop :=
  ∀ num den : Nat, 0 < den → (num : ℝ) / den / 2 ^ 149 < 2 ^ 128 →
    IsRN32 ((num : ℝ) / den / 2 ^ 149) (rn32 num den)

/-- R173: column F of the quantizer ROM is `440 * 2^((n-69)/12)`, a real number, rounded once. -/
def Obligations.NoteFrequencyIsRoundedOnce : Prop :=
  (∀ n : Int, -36 ≤ n → n ≤ 125 → IsRN32 (440 * (2 : ℝ) ^ (((n : ℝ) - 69) / 12)) (noteFrequency n)) ∧
  f32Value (noteFrequency 69) = 440 ∧ noteFrequency 70 = 0x43E914F6

/-- R67: column T of the quantizer ROM is the largest binary32 value below the upper boundary of the note; both columns double every
twelve rows. -/
def Obligations.QuantizerRomRows : Prop :=
  (∀ n : Int, -36 ≤ n → n ≤ 125 → ∀ y : F32, isFinite y = true →
    ((f32Value y : ℝ) < 440 * (2 : ℝ) ^ (((n : ℝ) - 69 + 0.5) / 12) ↔ f32Value y ≤ f32Value (noteThreshold n))) ∧
  ∀ n : Int, -36 ≤ n → n + 12 ≤ 125 →
    f32Value (noteFrequency (n + 12)) = 2 * f32Value (noteFrequency n) ∧
    f32Value (noteThreshold (n + 12)) = 2 * f32Value (noteThreshold n)

/-- R171, R175: the note number the ROM gives is the integer nearest to `69 + 12 log2(f / 440)`, a real number, with never a tie; it
rounds on the logarithmic scale (453.0 gives note 70). -/
def Obligations.NoteIsTheNearestOnTheLogScale : Prop :=
  (∀ f : F32, plusZeroOrPositive f → 1 ≤ f32Value f → f32Value f ≤ 11025 →
    |69 + 12 * Real.logb 2 ((f32Value f : ℝ) / 440) - noteOf f| < 1 / 2) ∧
  noteOf 0x43E28000 = 70

/-- R172: the note number is the least row whose threshold is not below the frequency, a row of the ROM (R174); the thresholds
rise strictly. -/
def Obligations.NoteIsTheLeastRow : Prop :=
  (∀ f : F32, plusZeroOrPositive f → 1 ≤ f32Value f → f32Value f ≤ 11025 →
    -36 ≤ noteOf f ∧ noteOf f ≤ 125 ∧ f32Value f ≤ f32Value (noteThreshold (noteOf f)) ∧
    ∀ m : Int, -36 ≤ m → m < noteOf f → f32Value (noteThreshold m) < f32Value f) ∧
  (∀ m n : Int, -36 ≤ m → m < n → n ≤ 125 → f32Value (noteThreshold m) < f32Value (noteThreshold n)) ∧
  noteOf 0x3F800000 = -36 ∧ noteOf fMax = 125

/-- R176: the quantizer returns an already snapped frequency unchanged; through SETFREQ the effective frequency is a fixed point, for
every request. -/
def Obligations.QuantizedFrequencyIsAFixedPoint : Prop :=
  (∀ n : Int, -36 ≤ n → n ≤ 124 → quantize (noteFrequency n) = noteFrequency n) ∧
  ∀ (d : Word) (s t : State), s.qen = true → exec (.setfreq d) s = .next t →
    ∃ u, exec (.setfreq t.eff) t = .next u ∧ u.eff = t.eff ∧ u.inc = t.inc ∧ u.note = t.note ∧ u.nv = t.nv

/-- R177 and R178 for every note number: the octave is `floor(n / 12) - 1`, the pitch class `n mod 12`, the name that of the pitch class
followed by the octave in decimal; and the rules' own examples. -/
def Obligations.NamesOfNotes : Prop :=
  (∀ n : Int, octave n = ⌊(n : ℚ) / 12⌋ - 1 ∧ pitchClass n < 12 ∧ n = 12 * (octave n + 1) + pitchClass n) ∧
  (∀ n : Int,
    (pitchClass n = 0 → noteName n = "C" ++ toString (octave n)) ∧
    (pitchClass n = 1 → noteName n = "C#" ++ toString (octave n)) ∧
    (pitchClass n = 2 → noteName n = "D" ++ toString (octave n)) ∧
    (pitchClass n = 3 → noteName n = "D#" ++ toString (octave n)) ∧
    (pitchClass n = 4 → noteName n = "E" ++ toString (octave n)) ∧
    (pitchClass n = 5 → noteName n = "F" ++ toString (octave n)) ∧
    (pitchClass n = 6 → noteName n = "F#" ++ toString (octave n)) ∧
    (pitchClass n = 7 → noteName n = "G" ++ toString (octave n)) ∧
    (pitchClass n = 8 → noteName n = "G#" ++ toString (octave n)) ∧
    (pitchClass n = 9 → noteName n = "A" ++ toString (octave n)) ∧
    (pitchClass n = 10 → noteName n = "A#" ++ toString (octave n)) ∧
    (pitchClass n = 11 → noteName n = "B" ++ toString (octave n))) ∧
  octave 69 = 4 ∧ pitchClass 69 = 9 ∧ octave (-36) = -4 ∧ pitchClass (-36) = 0 ∧ octave 125 = 9 ∧ pitchClass 125 = 5 ∧
  noteName 69 = "A4" ∧ noteName 70 = "A#4" ∧ noteName 60 = "C4" ∧ noteName (-36) = "C-4"

/-! ## Invariants -/

/-- The reset state meets the invariants of R36 (R220). -/
def Obligations.ResetMeetsTheInvariants : Prop :=
  State.reset.Inv

/-- R36: every clock cycle, with any pins, keeps the invariants. -/
def Obligations.EveryCycleKeepsTheInvariants : Prop :=
  ∀ s t : State, s.Inv → step s = .next t → t.Inv

/-- R36 and R30: every state that runs reach from a reset cycle, whatever the state at power-up, meets the invariants and holds
legal values only. The last clause is about the model's own counter, the model's choice (log entry 5, DESIGN CHOICE): the next cycle
uses no free value. -/
def Obligations.ReachedStatesAreLegal : Prop :=
  ∀ s : State, s.Reached → s.Inv ∧ s.Legal ∧
    ∀ (pins : List Pins) (t : State), step { s with inputs := pins } = .next t → t.freeCtr = s.freeCtr

/-- R224: at volume 0 a TICK writes OUT = 0, and this lasts until a SETVOL with a positive level; at INC = 0 the phase stays at 0
until a SETFREQ whose increment is positive. -/
def Obligations.SilentUntilConfigured : Prop :=
  State.reset.vol = 0 ∧ State.reset.out = 0 ∧ State.reset.inc = 0 ∧ State.reset.phase = 0 ∧
  ∀ s t : State, step s = .next t →
    (s.vol = 0 → s.out = 0 →
      (s.pins.cfgValid = true → ∀ d, decodeBus s.pins.busWord = .setvol d → d.toInt ≤ 0) → t.vol = 0 ∧ t.out = 0) ∧
    (s.inc = 0 → s.phase = 0 →
      (s.pins.cfgValid = true → ∀ d, decodeBus s.pins.busWord = .setfreq d →
        ∀ u, exec (.setfreq d) s = .next u → u.inc = 0) → t.inc = 0 ∧ t.phase = 0)

/-! ## Assembler text -/

/-- R108 and R109, from a parsed line (`AsmLine`) to the cycles: a line of one bus operation runs it in a cycle of its own, a line with
`|| tick` runs both in one cycle, joined as log entry 7 (DEDUCED) has it, `tick` and `ticks k` run TICKs, `nop` runs nothing. -/
def Obligations.AssemblerLinesRunTheirOperations : Prop :=
  (∀ (i : Instr) (s : State) (rest : List Pins), i.wellFormed = true → i ≠ .tick →
    step { s with inputs := (AsmLine.op i).pins ++ rest } = exec i { s with inputs := rest, cfgRdata := 0 } ∧
    step { s with inputs := (AsmLine.opTick i).pins ++ rest } =
      bothInCycle (exec i { s with inputs := rest, cfgRdata := 0 }) (exec .tick { s with inputs := rest, cfgRdata := 0 })) ∧
  (∀ (k : Nat) (s : State) (rest : List Pins),
    step { s with inputs := (AsmLine.ticks (k + 1)).pins ++ rest } =
      exec .tick { s with inputs := (AsmLine.ticks k).pins ++ rest, cfgRdata := 0 }) ∧
  ∀ (s : State) (rest : List Pins),
    step { s with inputs := AsmLine.nop.pins ++ rest } = .next { s with inputs := rest, cfgRdata := 0 }

/-- Lines of the spec's programs (95_test_vectors.md, section 10) and the words given beside them. -/
def Obligations.AssemblerLinesOfThePrograms : Prop :=
  assembleLine "setwave saw".toList = some [Pins.ofOpWord (.bus 0x1000000002)] ∧
  assembleLine "setvol 255".toList = some [Pins.ofOpWord (.bus 0x12000000FF)] ∧
  assembleLine "setvol -10".toList = some [Pins.ofOpWord (.bus 0x12FFFFFFF6)] ∧
  assembleLine "setfreq 86.1328125".toList = some [Pins.ofOpWord (.bus 0x1142AC4400)] ∧
  assembleLine "quant on".toList = some [Pins.ofOpWord (.bus 0x1300000001)] ∧
  assembleLine "wrign 7, 0xFF".toList = some [Pins.ofOpWord (.bus 0x17000000FF)] ∧
  assembleLine "rdrsv 9".toList = some [Pins.ofOpWord (.bus 0x0900000000)] ∧
  assembleLine "tick".toList = some [Pins.ofOpWord (.tickPort 1)] ∧
  assembleLine "setfreq 172.265625 || tick".toList =
    some [{ Pins.ofOpWord (.bus 0x11432C4400) with tick := true }]

/-- R108 and R109, from text to the pins: the canonical form of every operation, with every operand, gives the operation's word in a
cycle of its own (a read's with data 0), and with `|| tick` after it the same word with `tick` in that cycle; a value may be a
decimal integer, a negative one in two's complement; `ticks k`, with `k` in decimal, is k cycles of `tick`. That an address of `wrign`
and `rdrsv` may be written in hexadecimal, and the `k` of `ticks` in decimal, is the model's choice (log entry 11, DESIGN CHOICE:
R108 and R109 are silent). -/
def Obligations.AssemblerTextOfEveryOperation : Prop :=
  (∀ i : Instr, i.wellFormed = true →
    assembleLine (asmText i) = some [Pins.ofOpWord (encode (readDataZero i))] ∧
    (i ≠ .tick → assembleLine (asmText i ++ " || tick".toList) =
      some [{ Pins.ofOpWord (encode (readDataZero i)) with tick := true }])) ∧
  (∀ n : Nat, n < 2 ^ 32 → assembleLine ("setvol ".toList ++ Nat.toDigits 10 n) =
    some [Pins.ofOpWord (encode (.setvol (BitVec.ofNat 32 n)))]) ∧
  (∀ n : Nat, n ≤ 2 ^ 31 → assembleLine ("setvol -".toList ++ Nat.toDigits 10 n) =
    some [Pins.ofOpWord (encode (.setvol (BitVec.ofInt 32 (-(n : Int)))))]) ∧
  ∀ k : Nat, assembleLine ("ticks ".toList ++ Nat.toDigits 10 k) = some (List.replicate k { Pins.idle with tick := true })
end

