-- ==== Sys2Proof/Laws/Decode.lean ====
section
/-! SUPPORT. Laws of the bus word: its three fields take it apart and put it together (R95). -/

namespace Sys2Proof

/-- A bus word as a number. -/
theorem busWordOf_toNat (w : Bool) (a : Addr) (d : Word) :
    (busWordOf w a d).toNat = w.toNat * 2 ^ 36 + a.toNat * 2 ^ 32 + d.toNat := by
  have ha : a.toNat < 2 ^ 4 := a.isLt
  have hd : d.toNat < 2 ^ 32 := d.isLt
  have h1 : (busWordOf w a d).toNat = (w.toNat <<< 4 ||| a.toNat) <<< 32 ||| d.toNat := by
    have e : (busWordOf w a d).toNat = (BitVec.ofBool w ++ a).toNat <<< 32 ||| d.toNat := BitVec.toNat_append _ _
    rw [e, BitVec.toNat_append, BitVec.toNat_ofBool]
  rw [h1, ← Nat.shiftLeft_add_eq_or_of_lt hd, ← Nat.shiftLeft_add_eq_or_of_lt ha, Nat.shiftLeft_eq, Nat.shiftLeft_eq]
  ring

/-- The field `W` as a number. -/
theorem fieldW_eq (w : BusWord) : fieldW w = decide (w.toNat / 2 ^ 36 = 1) := by
  have h : w.toNat < 2 ^ 37 := w.isLt
  simp only [fieldW, BitVec.getLsbD, Nat.testBit_eq_decide_div_mod_eq, decide_eq_decide]
  omega

/-- The field `A` as a number. -/
theorem fieldA_toNat (w : BusWord) : (fieldA w).toNat = w.toNat / 2 ^ 32 % 2 ^ 4 := by
  simp [fieldA, BitVec.extractLsb'_toNat, Nat.shiftRight_eq_div_pow]

/-- The field `D` as a number. -/
theorem fieldD_toNat (w : BusWord) : (fieldD w).toNat = w.toNat % 2 ^ 32 := by
  simp [fieldD, BitVec.extractLsb'_toNat]

@[simp] theorem fieldW_busWordOf (w : Bool) (a : Addr) (d : Word) : fieldW (busWordOf w a d) = w := by
  have ha : a.toNat < 2 ^ 4 := a.isLt
  have hd : d.toNat < 2 ^ 32 := d.isLt
  rw [fieldW_eq, busWordOf_toNat]
  cases w
  · simp only [Bool.toNat_false, decide_eq_false_iff_not]; omega
  · simp only [Bool.toNat_true, decide_eq_true_eq]; omega

@[simp] theorem fieldA_busWordOf (w : Bool) (a : Addr) (d : Word) : fieldA (busWordOf w a d) = a := by
  have ha : a.toNat < 2 ^ 4 := a.isLt
  have hd : d.toNat < 2 ^ 32 := d.isLt
  apply BitVec.eq_of_toNat_eq
  rw [fieldA_toNat, busWordOf_toNat]
  omega

@[simp] theorem fieldD_busWordOf (w : Bool) (a : Addr) (d : Word) : fieldD (busWordOf w a d) = d := by
  have hd : d.toNat < 2 ^ 32 := d.isLt
  apply BitVec.eq_of_toNat_eq
  rw [fieldD_toNat, busWordOf_toNat]
  omega

/-- A bus word is made of its three fields (R95). -/
theorem busWordOf_fields (w : BusWord) : busWordOf (fieldW w) (fieldA w) (fieldD w) = w := by
  have h : w.toNat < 2 ^ 37 := w.isLt
  apply BitVec.eq_of_toNat_eq
  rw [busWordOf_toNat, fieldA_toNat, fieldD_toNat, fieldW_eq]
  by_cases hw : w.toNat / 2 ^ 36 = 1
  · simp only [hw, decide_true, Bool.toNat_true]; omega
  · simp only [hw, decide_false, Bool.toNat_false]; omega

/-- Decoding a word given by its fields (R105). -/
theorem decodeBus_busWordOf (w : Bool) (a : Addr) (d : Word) :
    decodeBus (busWordOf w a d) = if w then decodeWrite a d else decodeRead a d := by
  simp [decodeBus]

/-- A statement about sixteen addresses, one by one. -/
theorem addr_forall (P : Addr → Prop)
    (h : P 0 ∧ P 1 ∧ P 2 ∧ P 3 ∧ P 4 ∧ P 5 ∧ P 6 ∧ P 7 ∧ P 8 ∧ P 9 ∧ P 10 ∧ P 11 ∧ P 12 ∧ P 13 ∧ P 14 ∧ P 15) (a : Addr) :
    P a := by
  obtain ⟨n, hn⟩ : ∃ n, n = a.toNat := ⟨_, rfl⟩
  have e : a = BitVec.ofNat 4 n := by subst hn; simp
  have hn16 : n < 16 := by have := a.isLt; omega
  rw [e]
  clear e hn
  interval_cases n <;> simp_all

/-- One bit of a bus word, from its fields (R95). -/
theorem busWordOf_getLsbD (v : Bool) (a : Addr) (d : Word) (i : Nat) :
    (busWordOf v a d).getLsbD i =
      if i < 32 then d.getLsbD i else if i - 32 < 4 then a.getLsbD (i - 32) else (BitVec.ofBool v).getLsbD (i - 32 - 4) := by
  have h : (busWordOf v a d).getLsbD i = if i < 32 then d.getLsbD i else (BitVec.ofBool v ++ a).getLsbD (i - 32) :=
    BitVec.getLsbD_append
  rw [h, BitVec.getLsbD_append]

/-- Masking works field by field (R110). -/
theorem busWordOf_and (v w : Bool) (a b : Addr) (d e : Word) :
    busWordOf v a d &&& busWordOf w b e = busWordOf (v && w) (a &&& b) (d &&& e) := by
  apply BitVec.eq_of_getLsbD_eq
  intro i _
  rw [BitVec.getLsbD_and, busWordOf_getLsbD, busWordOf_getLsbD, busWordOf_getLsbD]
  split
  · simp
  · split
    · simp
    · cases v <;> cases w <;> simp

/-- Two bus words are equal when their fields are. -/
theorem busWordOf_inj {v w : Bool} {a b : Addr} {d e : Word} : busWordOf v a d = busWordOf w b e ↔ v = w ∧ a = b ∧ d = e := by
  constructor
  · intro h
    exact ⟨by simpa using congrArg fieldW h, by simpa using congrArg fieldA h, by simpa using congrArg fieldD h⟩
  · rintro ⟨rfl, rfl, rfl⟩; rfl

end Sys2Proof
end

