-- ==== Sys2Proof/Laws/Assembler.lean ====
section
/-! SUPPORT. Laws of assembler text (R108, R109): how a line falls into tokens, and what literals stand for. -/

namespace Sys2Proof.Machine

/-! ### The canonical forms; `rfl`, where unfolding `asmText` by `simp` is slow -/

theorem asmText_setwave (d : Word) : asmText (.setwave d) = "setwave ".toList ++ wordText d := rfl
theorem asmText_setfreq (d : Word) : asmText (.setfreq d) = "setfreq ".toList ++ wordText d := rfl
theorem asmText_setvol (d : Word) : asmText (.setvol d) = "setvol ".toList ++ wordText d := rfl
theorem asmText_setquant (d : Word) : asmText (.setquant d) = "setquant ".toList ++ wordText d := rfl
theorem asmText_wrign47 (a : Addr) (d : Word) : asmText (.wrign47 a d) = "wrign ".toList ++ addrText a ++ ", ".toList ++ wordText d := rfl
theorem asmText_wrign8F (a : Addr) (d : Word) : asmText (.wrign8F a d) = "wrign ".toList ++ addrText a ++ ", ".toList ++ wordText d := rfl
theorem asmText_rdrsv (a : Addr) (d : Word) : asmText (.rdrsv a d) = "rdrsv ".toList ++ addrText a := rfl

/-! ### Tokens -/

/-- A character that is part of a word and that case folding leaves alone. -/
def plainChar (c : Char) : Bool := c != '|' && c != ';' && c != ',' && !c.isWhitespace && c.toLower == c

/-- At the end of a line its last word is finished. -/
theorem tokensFrom_nil (acc) : tokensFrom acc [] = pushToken acc [] := by rw [tokensFrom]

/-- A plain character joins the word. -/
theorem tokensFrom_plain (acc) (c : Char) (cs) (h : plainChar c = true) : tokensFrom acc (c :: cs) = tokensFrom (c :: acc) cs := by
  simp only [plainChar, Bool.and_eq_true, bne_iff_ne, ne_eq, Bool.not_eq_true', beq_iff_eq] at h
  obtain ⟨⟨⟨⟨h1, h2⟩, h3⟩, h4⟩, h5⟩ := h
  rw [tokensFrom]
  · simp [h2, h3, h4, h5]
  · intro cs' h; exact absurd h h1

/-- Plain characters join the word. -/
theorem tokensFrom_word (w : List Char) (h : w.all plainChar = true) (acc cs) : tokensFrom acc (w ++ cs) = tokensFrom (w.reverse ++ acc) cs := by
  induction w generalizing acc with
  | nil => rfl
  | cons c w ih =>
    simp only [List.all_cons, Bool.and_eq_true] at h
    rw [List.cons_append, tokensFrom_plain _ _ _ h.1, ih h.2]; simp

/-- A blank ends the word. -/
theorem tokensFrom_space (acc cs) : tokensFrom acc (' ' :: cs) = pushToken acc (tokensFrom [] cs) := by
  rw [tokensFrom]
  · simp
  · simp

/-- A comma ends the word and is a token. -/
theorem tokensFrom_comma (acc cs) : tokensFrom acc (',' :: cs) = pushToken acc ([','] :: tokensFrom [] cs) := by
  rw [tokensFrom]
  · simp
  · simp

/-- A finished word is a token. -/
theorem pushToken_word (w rest) (h : w ≠ []) : pushToken w.reverse rest = w :: rest := by
  simp [pushToken, h]

/-- A word, then a blank. -/
theorem tokensFrom_word_space (w cs) (h : w.all plainChar = true) (hn : w ≠ []) : tokensFrom [] (w ++ ' ' :: cs) = w :: tokensFrom [] cs := by
  rw [tokensFrom_word w h, List.append_nil, tokensFrom_space, pushToken_word w _ hn]

/-- A word, then a comma. -/
theorem tokensFrom_word_comma (w cs) (h : w.all plainChar = true) (hn : w ≠ []) : tokensFrom [] (w ++ ',' :: cs) = w :: [','] :: tokensFrom [] cs := by
  rw [tokensFrom_word w h, List.append_nil, tokensFrom_comma, pushToken_word w _ hn]

/-- A word that ends the line. -/
theorem tokensFrom_only_word (w) (h : w.all plainChar = true) (hn : w ≠ []) : tokensFrom [] w = [w] := by
  have := tokensFrom_word w h [] []
  rw [List.append_nil] at this
  rw [this, List.append_nil, tokensFrom_nil, pushToken_word w _ hn]

/-- A blank between tokens. -/
theorem tokensFrom_blank (cs) : tokensFrom [] (' ' :: cs) = tokensFrom [] cs := by rw [tokensFrom_space]; rfl

/-- The tokens of `|| tick`. -/
theorem tokensFrom_tick : tokensFrom [] "|| tick".toList = ["||".toList, "tick".toList] := by decide +kernel

/-- A word, then `|| tick`. -/
theorem tokensFrom_word_tick (w) (h : w.all plainChar = true) (hn : w ≠ []) : tokensFrom [] (w ++ " || tick".toList) = [w, "||".toList, "tick".toList] := by
  have : " || tick".toList = ' ' :: "|| tick".toList := by decide +kernel
  rw [this, tokensFrom_word_space w _ h hn, tokensFrom_tick]

/-- A hexadecimal digit is plain and has its value. -/
theorem digitChar_hex : ∀ v < 16, plainChar (Nat.digitChar v) = true ∧ digitValue 16 (Nat.digitChar v) = some v := by decide +kernel

/-- The characters of a hexadecimal literal are plain. -/
theorem wordText_plain (d : Word) : (wordText d).all plainChar = true := by
  simp only [wordText, List.map, List.all_cons, List.all_nil, Bool.and_true]
  have h := fun k => (digitChar_hex (d.toNat / 16 ^ k % 16) (Nat.mod_lt _ (by norm_num))).1
  simp only [h]; decide

/-- So are those of an address. -/
theorem addrText_plain (a : Addr) : (addrText a).all plainChar = true := by
  simp only [addrText, List.all_cons, List.all_nil, Bool.and_true, (digitChar_hex a.toNat a.isLt).1]; decide

/-- A hexadecimal literal is a word. -/
theorem wordText_ne_nil (d : Word) : wordText d ≠ [] := by simp [wordText]

/-- So is an address. -/
theorem addrText_ne_nil (a : Addr) : addrText a ≠ [] := by simp [addrText]

/-- A hexadecimal literal has its value. -/
theorem unsignedLiteral_wordText (d : Word) : unsignedLiteral (wordText d) = some d.toNat := by
  have h := fun k => (digitChar_hex (d.toNat / 16 ^ k % 16) (Nat.mod_lt _ (by norm_num))).2
  simp only [wordText, List.map, unsignedLiteral, natLiteral, List.isEmpty_cons, Bool.false_eq_true, if_false, digitsFrom, h, Option.bind_some]
  have := d.isLt
  congr 1; norm_num; omega

/-- As a 32-bit value too. -/
theorem wordLiteral_wordText (d : Word) : wordLiteral (wordText d) = some d := by
  have e : wordLiteral (wordText d) = (unsignedLiteral (wordText d)).bind fun n => if n < 2 ^ 32 then some (BitVec.ofNat 32 n) else none := rfl
  rw [e, unsignedLiteral_wordText, Option.bind_some, if_pos d.isLt]; simp

/-- An address has its value. -/
theorem unsignedLiteral_addrText (a : Addr) : unsignedLiteral (addrText a) = some a.toNat := by
  simp only [addrText, unsignedLiteral, natLiteral, List.isEmpty_cons, Bool.false_eq_true, if_false, digitsFrom, (digitChar_hex a.toNat a.isLt).2, Option.bind_some]
  simp

/-- A decimal digit is plain, has its value, and is neither `x` nor a sign. -/
theorem digitChar_decimal : ∀ v < 10, plainChar (Nat.digitChar v) = true ∧ digitValue 10 (Nat.digitChar v) = some v ∧ Nat.digitChar v ≠ 'x' ∧ Nat.digitChar v ≠ '-' := by decide +kernel

/-- Digits are read from left to right. -/
theorem digitsFrom_append (b acc : ℕ) (xs ys : List Char) : digitsFrom b acc (xs ++ ys) = (digitsFrom b acc xs).bind fun r => digitsFrom b r ys := by
  induction xs generalizing acc with
  | nil => rfl
  | cons c cs ih =>
    simp only [List.cons_append, digitsFrom]
    cases digitValue b c with
    | none => rfl
    | some v => simp [ih]

/-- The digits of a number are plain, have its value, and hold neither `x` nor a sign. -/
theorem toDigits_plain (n : ℕ) : (Nat.toDigits 10 n).all plainChar = true ∧ digitsFrom 10 0 (Nat.toDigits 10 n) = some n ∧ 'x' ∉ Nat.toDigits 10 n ∧ '-' ∉ Nat.toDigits 10 n := by
  induction n using Nat.strongRecOn with
  | ind n ih =>
    by_cases h : n < 10
    · rw [Nat.toDigits_of_lt_base h]
      obtain ⟨a, b, c, d⟩ := digitChar_decimal n h
      simp [a, b, digitsFrom, c.symm, d.symm]
    · rw [Nat.toDigits_of_base_le (by norm_num) (by omega)]
      obtain ⟨a, b, c, d⟩ := digitChar_decimal (n % 10) (by omega)
      obtain ⟨a', b', c', d'⟩ := ih (n / 10) (by omega)
      refine ⟨by simp [a] at a' ⊢; exact a', ?_, by simp [c', c.symm], by simp [d', d.symm]⟩
      rw [digitsFrom_append, b']
      simp only [Option.bind_some, digitsFrom, b]
      congr 1; omega

/-- A decimal number has its value. -/
theorem natLiteral_toDigits (n : ℕ) : natLiteral 10 (Nat.toDigits 10 n) = some n := by
  simp [natLiteral, Nat.toDigits_ne_nil, (toDigits_plain n).2.1]

/-- As an unsigned literal too. -/
theorem unsignedLiteral_toDigits (n : ℕ) : unsignedLiteral (Nat.toDigits 10 n) = some n := by
  unfold unsignedLiteral
  split
  · rename_i cs heq
    exact absurd (by rw [heq]; simp) (toDigits_plain n).2.2.1
  · exact natLiteral_toDigits n

/-- And as a 32-bit value. -/
theorem wordLiteral_toDigits (n : ℕ) (h : n < 2 ^ 32) : wordLiteral (Nat.toDigits 10 n) = some (BitVec.ofNat 32 n) := by
  unfold wordLiteral
  split
  · rename_i cs heq
    exact absurd (by rw [heq]; simp) (toDigits_plain n).2.2.2
  · rw [unsignedLiteral_toDigits, Option.bind_some, if_pos h]

/-- A line of one bus operation, alone and with `|| tick` after it. -/
theorem asmLineOf_op (toks : List (List Char)) (i : Instr) (m : List Char) (ts : List (List Char)) (h : toks = m :: ts) (hb : busLine toks = some i)
    (h1 : m ≠ "nop".toList) (h2 : m ≠ "tick".toList) (h3 : m ≠ "ticks".toList) (h4 : toks.drop (toks.length - 2) ≠ ["||".toList, "tick".toList]) :
    asmLineOf toks = some (.op i) ∧ asmLineOf (toks ++ ["||".toList, "tick".toList]) = some (.opTick i) := by
  subst h
  constructor
  · unfold asmLineOf
    rw [if_neg (List.cons_ne_nil _ _), if_neg (fun h => h1 (List.cons.inj h).1), if_neg (fun h => h2 (List.cons.inj h).1), if_neg h4]
    split
    · rename_i a b heq
      simp only [List.cons.injEq] at heq
      obtain ⟨rfl, rfl⟩ := heq
      rw [if_neg h3, hb]; rfl
    · rw [hb]; rfl
  · unfold asmLineOf
    rw [if_neg (by simp), if_neg (by simp), if_neg (by simp), if_pos (by simp)]
    simp [hb]

end Sys2Proof.Machine
end

