-- ==== Sys2Proof/Laws/Binary32.lean ====
section
/-! SUPPORT. Laws of binary32 patterns, magnitudes and rounding (R11): the order of patterns is the order of numbers, and `rn32` gives
the nearest magnitude, halves to the even fraction. -/

namespace Sys2Proof.Machine

/-- The sign is the top bit of the pattern number. -/
theorem signBit_eq (x : F32) : signBit x = decide (x.toNat / 2 ^ 31 % 2 = 1) := by
  simp [signBit, BitVec.getLsbD, Nat.testBit_eq_decide_div_mod_eq]

/-- The biased exponent as a part of the pattern number. -/
theorem expField_eq (x : F32) : expField x = x.toNat / 2 ^ 23 % 256 := by
  simp [expField, BitVec.extractLsb'_toNat, Nat.shiftRight_eq_div_pow]

/-- The fraction as a part of the pattern number. -/
theorem fracField_eq (x : F32) : fracField x = x.toNat % 2 ^ 23 := by
  simp [fracField, BitVec.extractLsb'_toNat]

/-- A fraction has 23 bits. -/
theorem fracField_lt (x : F32) : fracField x < 2 ^ 23 := by
  rw [fracField_eq]; omega

/-- The patterns without sign are the lower half of all pattern numbers. -/
theorem signBit_false_iff (x : F32) : signBit x = false ↔ x.toNat < 2 ^ 31 := by
  have h : x.toNat < 2 ^ 32 := x.isLt
  rw [signBit_eq, decide_eq_false_iff_not]
  omega

/-- A pattern is finite unless its exponent is 255. -/
theorem isFinite_iff (x : F32) : isFinite x = true ↔ expField x ≠ 255 := by
  simp [isFinite]

/-- The patterns of finite numbers without sign are the naturals below that of infinity. -/
theorem plus_finite_iff (x : F32) : (signBit x = false ∧ isFinite x = true) ↔ x.toNat < 0x7F800000 := by
  have h : x.toNat < 2 ^ 32 := x.isLt
  rw [signBit_false_iff, isFinite_iff, expField_eq]
  omega

/-- Magnitude units as a function of the pattern number. -/
def patUnits (n : Nat) : Nat :=
  if n / 2 ^ 23 = 0 then n else (2 ^ 23 + n % 2 ^ 23) * 2 ^ (n / 2 ^ 23 - 1)

/-- Without a sign, the magnitude is a function of the pattern number alone. -/
theorem magUnits_eq_patUnits (x : F32) (h : signBit x = false) : magUnits x = patUnits x.toNat := by
  rw [signBit_false_iff] at h
  have : expField x = x.toNat / 2 ^ 23 := by rw [expField_eq]; omega
  unfold magUnits patUnits
  rw [this, fracField_eq]
  split <;> omega

/-- `m` last places of `2^k` units have the pattern number `k * 2^23 + m`. -/
theorem patUnits_scaled (k m : Nat) (h : k = 0 ∨ 2 ^ 23 ≤ m) (hm : m ≤ 2 ^ 24) :
    patUnits (k * 2 ^ 23 + m) = m * 2 ^ k := by
  unfold patUnits
  by_cases h0 : m < 2 ^ 23
  · have hk : k = 0 := by omega
    subst hk
    simp; omega
  · by_cases h1 : m = 2 ^ 24
    · have e : (k * 2 ^ 23 + m) / 2 ^ 23 = k + 2 := by omega
      have e2 : (k * 2 ^ 23 + m) % 2 ^ 23 = 0 := by omega
      rw [e, e2, h1]
      simp [pow_succ]; ring
    · have e : (k * 2 ^ 23 + m) / 2 ^ 23 = k + 1 := by omega
      have e2 : (k * 2 ^ 23 + m) % 2 ^ 23 = m - 2 ^ 23 := by omega
      rw [e, e2]
      have e3 : 2 ^ 23 + (m - 2 ^ 23) = m := by omega
      rw [e3, Nat.add_sub_cancel, if_neg (by omega)]

/-- The next pattern encodes a larger number. -/
theorem patUnits_lt_succ (n : Nat) : patUnits n < patUnits (n + 1) := by
  obtain ⟨k, m, hn, hk, hm⟩ : ∃ k m, n = k * 2 ^ 23 + m ∧ (k = 0 ∨ 2 ^ 23 ≤ m) ∧ m < 2 ^ 24 := by
    by_cases h : n < 2 ^ 24
    · exact ⟨0, n, by omega, .inl rfl, h⟩
    · exact ⟨n / 2 ^ 23 - 1, n % 2 ^ 23 + 2 ^ 23, by omega, by omega, by omega⟩
  subst hn
  rw [patUnits_scaled k m hk (by omega), Nat.add_assoc, patUnits_scaled k (m + 1) (by omega) (by omega)]
  exact Nat.mul_lt_mul_of_pos_right (by omega) (by positivity)

/-- Larger patterns encode larger numbers. -/
theorem patUnits_strictMono : StrictMono patUnits := strictMono_nat_of_lt_succ patUnits_lt_succ

/-- Numbers without sign compare as their patterns. -/
theorem magUnits_lt_iff {x y : F32} (hx : signBit x = false) (hy : signBit y = false) :
    magUnits x < magUnits y ↔ x.toNat < y.toNat := by
  rw [magUnits_eq_patUnits x hx, magUnits_eq_patUnits y hy]
  exact patUnits_strictMono.lt_iff_lt

/-- Numbers without sign compare as their patterns. -/
theorem magUnits_le_iff {x y : F32} (hx : signBit x = false) (hy : signBit y = false) :
    magUnits x ≤ magUnits y ↔ x.toNat ≤ y.toNat := by
  rw [magUnits_eq_patUnits x hx, magUnits_eq_patUnits y hy]
  exact patUnits_strictMono.le_iff_le

/-- A number without sign has one pattern. -/
theorem magUnits_inj {x y : F32} (hx : signBit x = false) (hy : signBit y = false) (h : magUnits x = magUnits y) : x = y := by
  rw [magUnits_eq_patUnits x hx, magUnits_eq_patUnits y hy] at h
  exact BitVec.eq_of_toNat_eq (patUnits_strictMono.injective h)

/-- The magnitude of a pattern given by its number. -/
theorem magUnits_ofNat {n : Nat} (h : n < 2 ^ 31) : magUnits (BitVec.ofNat 32 n) = patUnits n := by
  have e : (BitVec.ofNat 32 n).toNat = n := by simp; omega
  rw [magUnits_eq_patUnits _ (by rw [signBit_false_iff, e]; exact h), e]

/-- R11's value and the magnitude in units say the same. -/
theorem f32Value_eq_units (x : F32) (h : signBit x = false) : f32Value x = (magUnits x : ℚ) / 2 ^ 149 := by
  unfold f32Value magUnits
  simp only [h, Bool.false_eq_true, if_false]
  split
  · rename_i h0
    norm_num
    ring
  · rename_i h0
    obtain ⟨e, he⟩ : ∃ e, expField x = e + 1 := ⟨expField x - 1, by omega⟩
    rw [he]
    have : ((e + 1 : ℕ) : ℤ) - 127 = (e : ℤ) - 126 := by push_cast; ring
    rw [this, zpow_sub₀ (by norm_num)]
    push_cast
    simp only [zpow_natCast]
    norm_num
    ring

/-- With the sign bit set, the value is the negated magnitude. -/
theorem f32Value_neg (x : F32) (h : signBit x = true) : f32Value x = -((magUnits x : ℚ) / 2 ^ 149) := by
  unfold f32Value magUnits
  simp only [h, if_true]
  split
  · norm_num
    ring
  · obtain ⟨e, he⟩ : ∃ e, expField x = e + 1 := ⟨expField x - 1, by omega⟩
    rw [he]
    have : ((e + 1 : ℕ) : ℤ) - 127 = (e : ℤ) - 126 := by push_cast; ring
    rw [this, zpow_sub₀ (by norm_num)]
    push_cast
    simp only [zpow_natCast]
    norm_num
    ring

/-- Rounding a quotient leaves at most half the divisor, and an even result where it leaves exactly half. -/
theorem divNearestEven_spec (num den : Nat) (hd : 0 < den) :
    2 * |(divNearestEven num den : ℤ) * den - num| ≤ den ∧
    (2 * |(divNearestEven num den : ℤ) * den - num| = den → divNearestEven num den % 2 = 0) := by
  have hq : (num : ℤ) = den * (num / den : ℕ) + (num % den : ℕ) := by exact_mod_cast (Nat.div_add_mod num den).symm
  have hr : num % den < den := Nat.mod_lt _ hd
  unfold divNearestEven
  dsimp only
  generalize num / den = q at *
  generalize num % den = r at *
  have e0 : (q : ℤ) * den - num = -r := by rw [hq]; ring
  have e1 : ((q + 1 : ℕ) : ℤ) * den - num = den - r := by rw [hq]; push_cast; ring
  split
  · rw [e0, abs_neg, abs_of_nonneg (by positivity)]; omega
  · split
    · rw [e1, abs_of_nonneg (by omega)]; omega
    · split
      · rw [e0, abs_neg, abs_of_nonneg (by positivity)]; omega
      · rw [e1, abs_of_nonneg (by omega)]; omega

/-- Rounding moves a quotient to its floor or to the natural above it. -/
theorem divNearestEven_bounds (num den : Nat) :
    num / den ≤ divNearestEven num den ∧ divNearestEven num den ≤ num / den + 1 := by
  unfold divNearestEven
  dsimp only
  split
  · omega
  · split
    · omega
    · split <;> omega

/-- A whole quotient is not moved. -/
theorem divNearestEven_mul (m den : Nat) (hd : 0 < den) : divNearestEven (m * den) den = m := by
  unfold divNearestEven
  simp [hd]

/-- No integer is nearer to the quotient; where another is as near, the result is even. -/
theorem divNearestEven_nearest (num den : Nat) (hd : 0 < den) (c : ℤ) :
    |(divNearestEven num den : ℤ) * den - num| ≤ |c * den - num| ∧
    (|(divNearestEven num den : ℤ) * den - num| = |c * den - num| → c = divNearestEven num den ∨ divNearestEven num den % 2 = 0) := by
  obtain ⟨h1, h2⟩ := divNearestEven_spec num den hd
  generalize divNearestEven num den = m at *
  by_cases hc : c = m
  · subst hc; exact ⟨le_refl _, fun _ => .inl rfl⟩
  · have h3 : (den : ℤ) ≤ |(m : ℤ) * den - num| + |c * den - num| := by
      have : (den : ℤ) ≤ |(m - c) * (den : ℤ)| := by
        rw [abs_mul, abs_of_nonneg (show (0 : ℤ) ≤ den by positivity)]
        have : 1 ≤ |(m : ℤ) - c| := Int.one_le_abs (by omega)
        nlinarith
      calc (den : ℤ) ≤ |(m - c) * (den : ℤ)| := this
        _ = |((m : ℤ) * den - num) - (c * den - num)| := by congr 1; ring
        _ ≤ _ := abs_sub _ _
    refine ⟨by omega, fun h => .inr (h2 (by omega))⟩

/-- Where the last place of a quotient lies: below it there are at most 24 bits, and exactly 24 above the subnormals. -/
theorem ulpExponent_bounds (u : Nat) :
    u < 2 ^ (ulpExponent u + 24) ∧ (ulpExponent u = 0 ∨ 2 ^ (ulpExponent u + 23) ≤ u) := by
  unfold ulpExponent
  by_cases h0 : u = 0
  · subst h0; simp
  · have h1 := Nat.lt_log2_self (n := u)
    have h2 := Nat.log2_self_le h0
    refine ⟨lt_of_lt_of_le h1 (Nat.pow_le_pow_right (by norm_num) (by omega)), ?_⟩
    by_cases h : Nat.log2 u ≤ 23
    · left; omega
    · right
      have e : Nat.log2 u - 23 + 23 = Nat.log2 u := by omega
      rw [e]; exact h2

/-- The shape of a rounded value: `m` last places of `2^k` units. -/
theorem binadePattern_shape (num den : Nat) :
    ∃ k m, binadePattern num den = k * 2 ^ 23 + m ∧ k = ulpExponent (num / den) ∧ m = divNearestEven num (den * 2 ^ k) ∧
      (k = 0 ∨ 2 ^ 23 ≤ m) ∧ m ≤ 2 ^ 24 ∧ (k = 0 ∨ 2 ^ (k + 23) * den ≤ num) := by
  refine ⟨_, _, rfl, rfl, rfl, ?_⟩
  obtain ⟨h1, h2⟩ := ulpExponent_bounds (num / den)
  generalize ulpExponent (num / den) = k at *
  obtain ⟨b1, b2⟩ := divNearestEven_bounds num (den * 2 ^ k)
  have hd : num / (den * 2 ^ k) = num / den / 2 ^ k := (Nat.div_div_eq_div_mul _ _ _).symm
  have h3 : num / den / 2 ^ k < 2 ^ 24 := by
    rw [Nat.div_lt_iff_lt_mul (by positivity), ← pow_add, add_comm 24 k]; exact h1
  refine ⟨?_, by omega, ?_⟩
  · rcases h2 with h2 | h2
    · exact .inl h2
    · right
      have : 2 ^ 23 ≤ num / den / 2 ^ k := by
        rw [Nat.le_div_iff_mul_le (by positivity), ← pow_add, add_comm 23 k]; exact h2
      omega
  · rcases h2 with h2 | h2
    · exact .inl h2
    · right
      calc 2 ^ (k + 23) * den ≤ num / den * den := Nat.mul_le_mul_right _ h2
        _ ≤ num := Nat.div_mul_le_self _ _

/-- Every magnitude is a whole number of last places of `2^k` units, or lies below their binade. -/
theorem magUnits_grid (y : F32) (hy : signBit y = false) (k : Nat) :
    2 ^ k ∣ magUnits y ∨ magUnits y < 2 ^ (k + 23) := by
  rw [magUnits_eq_patUnits y hy]
  generalize y.toNat = n
  obtain ⟨j, m, hn, hj, hm⟩ : ∃ k m, n = k * 2 ^ 23 + m ∧ (k = 0 ∨ 2 ^ 23 ≤ m) ∧ m < 2 ^ 24 := by
    by_cases h : n < 2 ^ 24
    · exact ⟨0, n, by omega, .inl rfl, h⟩
    · exact ⟨n / 2 ^ 23 - 1, n % 2 ^ 23 + 2 ^ 23, by omega, by omega, by omega⟩
  subst hn
  rw [patUnits_scaled j m hj (by omega)]
  by_cases h : k ≤ j
  · left; exact Dvd.dvd.mul_left (pow_dvd_pow 2 h) m
  · right
    calc m * 2 ^ j < 2 ^ 24 * 2 ^ j := Nat.mul_lt_mul_of_pos_right hm (by positivity)
      _ = 2 ^ (24 + j) := (pow_add 2 24 j).symm
      _ ≤ 2 ^ (k + 23) := Nat.pow_le_pow_right (by norm_num) (by omega)

/-- The largest 24-bit number of last places of one binade lies below the next binades. -/
theorem binade_below (c k : Nat) (h : c < k) : (2 ^ 24 - 1) * 2 ^ c < 2 ^ (k + 23) :=
  calc (2 ^ 24 - 1) * 2 ^ c < 2 ^ 24 * 2 ^ c := Nat.mul_lt_mul_of_pos_right (by norm_num) (by positivity)
    _ = 2 ^ (24 + c) := (pow_add 2 24 c).symm
    _ ≤ 2 ^ (k + 23) := Nat.pow_le_pow_right (by norm_num) (by omega)

/-- Rounding a quotient up to the largest finite number gives a finite pattern. -/
theorem binadePattern_finite (num den : Nat) (hd : 0 < den) (h : num ≤ magUnits 0x7F7FFFFF * den) :
    binadePattern num den < 0x7F800000 := by
  have hM : magUnits 0x7F7FFFFF = (2 ^ 24 - 1) * 2 ^ 253 := by decide +kernel
  rw [hM] at h
  obtain ⟨k, m, hp, hk, hm, -, hm2, h5⟩ := binadePattern_shape num den
  rw [hp]
  have hk2 : k ≤ 253 := by
    by_contra hc
    have h5 := h5.resolve_left (by omega)
    exact absurd (Nat.le_of_mul_le_mul_right (h5.trans h) hd) (Nat.not_le.2 (binade_below 253 k (by omega)))
  by_cases hk3 : k = 253
  · subst hk3
    by_cases hm3 : m = 2 ^ 24
    · exfalso
      obtain ⟨b1, b2⟩ := divNearestEven_bounds num (den * 2 ^ 253)
      have : 2 ^ 24 - 1 ≤ num / (den * 2 ^ 253) := by omega
      rw [Nat.le_div_iff_mul_le (by positivity)] at this
      have e : num = (2 ^ 24 - 1) * (den * 2 ^ 253) := by
        apply le_antisymm _ this
        calc num ≤ _ := h
          _ = _ := by ring
      rw [e, divNearestEven_mul _ _ (by positivity)] at hm
      omega
    · omega
  · omega

/-- The pattern number of a rounded value. -/
theorem rn32_toNat (num den : Nat) : (rn32 num den).toNat = min (binadePattern num den) 0x7F7FFFFF := by
  have h : largestF32.toNat = 0x7F7FFFFF := by decide
  unfold rn32 rn32Pattern
  rw [h, BitVec.toNat_ofNat]
  omega

/-- A rounded value is always finite and without sign. -/
theorem rn32_plus_finite (num den : Nat) : signBit (rn32 num den) = false ∧ isFinite (rn32 num den) = true := by
  rw [plus_finite_iff, rn32_toNat]
  omega

/-- Every quotient above the largest finite value rounds to that value. -/
theorem rn32_above (num den : Nat) (hd : 0 < den) (h : magUnits 0x7F7FFFFF * den ≤ num) : rn32 num den = 0x7F7FFFFF := by
  have hM : magUnits 0x7F7FFFFF = (2 ^ 24 - 1) * 2 ^ 253 := by decide +kernel
  rw [hM] at h
  apply BitVec.eq_of_toNat_eq
  rw [rn32_toNat, show (0x7F7FFFFF : F32).toNat = 0x7F7FFFFF by decide]
  obtain ⟨k, m, hp, hk, hm, hkm, -, -⟩ := binadePattern_shape num den
  have hq : (2 ^ 24 - 1) * 2 ^ 253 ≤ num / den := (Nat.le_div_iff_mul_le hd).2 h
  have hk2 : 253 ≤ k := by
    by_contra hc
    have h1 := (ulpExponent_bounds (num / den)).1
    rw [← hk] at h1
    have h2 : 2 ^ (k + 24) ≤ 2 ^ 252 * 2 ^ 24 := by
      rw [pow_add]
      exact Nat.mul_le_mul_right _ (Nat.pow_le_pow_right (by norm_num) (by omega))
    have h3 : 2 ^ 252 * 2 ^ 24 < (2 ^ 24 - 1) * 2 ^ 253 := by norm_num
    exact lt_irrefl _ (((h1.trans_le h2).trans h3).trans_le hq)
  rw [hp]
  by_cases hk3 : k = 253
  · subst hk3
    have h1 : 2 ^ 24 - 1 ≤ num / (den * 2 ^ 253) := by
      rw [Nat.le_div_iff_mul_le (by positivity)]
      calc (2 ^ 24 - 1) * (den * 2 ^ 253) = (2 ^ 24 - 1) * 2 ^ 253 * den := by ring
        _ ≤ num := h
    have h2 := (divNearestEven_bounds num (den * 2 ^ 253)).1
    omega
  · have := hkm.resolve_left (by omega)
    omega

/-- Below `2^128` the rounding is the one R11 states. -/
theorem statedRn32_of_lt {num den : Nat} (h : num < 2 ^ 128 * unitsPerOne * den) : statedRn32 num den = some (rn32 num den) :=
  if_pos h

/-- The machine's rounding, in units: the result is finite and without sign, no magnitude is nearer, and where another is as near
the fraction is even. -/
theorem rn32_units_nearest (num den : Nat) (hd : 0 < den) (h : num ≤ magUnits 0x7F7FFFFF * den) :
    signBit (rn32 num den) = false ∧ isFinite (rn32 num den) = true ∧
    ∀ y : F32, signBit y = false →
      |(magUnits (rn32 num den) : ℤ) * den - num| ≤ |(magUnits y : ℤ) * den - num| ∧
      (|(magUnits (rn32 num den) : ℤ) * den - num| = |(magUnits y : ℤ) * den - num| →
        y = rn32 num den ∨ fracField (rn32 num den) % 2 = 0) := by
  have hf := binadePattern_finite num den hd h
  have hx : (rn32 num den).toNat = binadePattern num den := by rw [rn32_toNat]; omega
  have hfin := (plus_finite_iff (rn32 num den)).2 (by omega)
  refine ⟨hfin.1, hfin.2, fun y hy => ?_⟩
  obtain ⟨k, m, hp, hk, hm, hkm, hm2, h5⟩ := binadePattern_shape num den
  have hmag : magUnits (rn32 num den) = m * 2 ^ k := by
    rw [magUnits_eq_patUnits _ hfin.1, hx, hp, patUnits_scaled k m hkm hm2]
  have hfrac : fracField (rn32 num den) % 2 = m % 2 := by
    rw [fracField_eq, hx, hp]; omega
  have key := fun c => divNearestEven_nearest num (den * 2 ^ k) (by positivity) c
  rw [← hm] at key
  have e1 : ((m : ℤ) * (den * 2 ^ k : ℕ)) = (magUnits (rn32 num den) : ℤ) * den := by
    rw [hmag]; push_cast; ring
  rw [e1] at key
  rw [hfrac]
  rcases magUnits_grid y hy k with ⟨c, hc⟩ | hlt
  · have := key c
    have e2 : ((c : ℤ) * (den * 2 ^ k : ℕ)) = (magUnits y : ℤ) * den := by rw [hc]; push_cast; ring
    rw [e2] at this
    refine ⟨this.1, fun he => ?_⟩
    rcases this.2 he with h' | h'
    · left
      apply magUnits_inj hy hfin.1
      rw [hc, hmag]
      have : c = m := by exact_mod_cast h'
      rw [this]; ring
    · exact .inr h'
  · by_cases hk0 : k = 0
    · subst hk0
      have := key (magUnits y)
      simp only [pow_zero, mul_one] at this
      refine ⟨this.1, fun he => ?_⟩
      rcases this.2 he with h' | h'
      · left
        apply magUnits_inj hy hfin.1
        rw [hmag]; simp; exact_mod_cast h'
      · exact .inr h'
    · have h5 := h5.resolve_left hk0
      have h6 := (key (2 ^ 23)).1
      have h7 : ((2 ^ 23 : ℤ) * (den * 2 ^ k : ℕ)) = ((2 ^ (k + 23) : ℕ) : ℤ) * den := by push_cast; ring
      rw [h7] at h6
      have h8 : ((2 ^ (k + 23) : ℕ) : ℤ) * den ≤ num := by exact_mod_cast h5
      have h9 : (magUnits y : ℤ) * den < ((2 ^ (k + 23) : ℕ) : ℤ) * den := by
        exact_mod_cast Nat.mul_lt_mul_of_pos_right hlt hd
      rw [abs_of_nonpos (show ((2 ^ (k + 23) : ℕ) : ℤ) * den - num ≤ 0 by omega)] at h6
      rw [abs_of_nonpos (show (magUnits y : ℤ) * den - num ≤ 0 by omega)]
      constructor
      · omega
      · intro he; omega

/-- Values without sign compare as their magnitudes. -/
theorem f32_le_iff {x y : F32} (hx : signBit x = false) (hy : signBit y = false) :
    f32Value x ≤ f32Value y ↔ magUnits x ≤ magUnits y := by
  rw [f32Value_eq_units x hx, f32Value_eq_units y hy, div_le_div_iff_of_pos_right (by positivity)]
  exact_mod_cast Iff.rfl

/-- Values without sign compare as their magnitudes. -/
theorem f32_lt_iff {x y : F32} (hx : signBit x = false) (hy : signBit y = false) :
    f32Value x < f32Value y ↔ magUnits x < magUnits y := by
  rw [f32Value_eq_units x hx, f32Value_eq_units y hy, div_lt_div_iff_of_pos_right (by positivity)]
  exact_mod_cast Iff.rfl

/-- Rounding a number that binary32 holds gives it back. -/
theorem rn32_exact (x : F32) (hx : signBit x = false) (hf : isFinite x = true) : rn32 (magUnits x) 1 = x := by
  have hxn := (plus_finite_iff x).1 ⟨hx, hf⟩
  have hle : magUnits x ≤ magUnits 0x7F7FFFFF * 1 := by
    rw [mul_one, magUnits_le_iff hx (by decide)]
    have : (0x7F7FFFFF : F32).toNat = 0x7F7FFFFF := by decide
    omega
  obtain ⟨h1, h2, h3⟩ := rn32_units_nearest (magUnits x) 1 one_pos hle
  have := (h3 x hx).1
  simp at this
  exact magUnits_inj h1 hx (by omega)

/-- Rounding is monotone. -/
theorem rn32_mono {a b den : Nat} (hd : 0 < den) (hab : a ≤ b) (hb : b ≤ magUnits 0x7F7FFFFF * den) :
    magUnits (rn32 a den) ≤ magUnits (rn32 b den) := by
  obtain ⟨p1, p2, p3⟩ := rn32_units_nearest a den hd (hab.trans hb)
  obtain ⟨q1, q2, q3⟩ := rn32_units_nearest b den hd hb
  by_contra hc
  push Not at hc
  obtain ⟨h1, h2⟩ := p3 _ q1
  obtain ⟨h3, h4⟩ := q3 _ p1
  have hne : rn32 b den ≠ rn32 a den := fun h => by rw [h] at hc; omega
  have hlt : (magUnits (rn32 b den) : ℤ) * den < (magUnits (rn32 a den) : ℤ) * den := by
    exact_mod_cast Nat.mul_lt_mul_of_pos_right hc hd
  have hab' : (a : ℤ) ≤ b := by exact_mod_cast hab
  generalize hA : (magUnits (rn32 a den) : ℤ) * den = A at *
  generalize hB : (magUnits (rn32 b den) : ℤ) * den = B at *
  have e1 : A + B ≤ 2 * a := by
    rcases abs_cases (A - a) with ⟨u, _⟩ | ⟨u, _⟩ <;> rcases abs_cases (B - (a : ℤ)) with ⟨v, _⟩ | ⟨v, _⟩ <;> omega
  have e2 : 2 * b ≤ A + B := by
    rcases abs_cases (A - (b : ℤ)) with ⟨u, _⟩ | ⟨u, _⟩ <;> rcases abs_cases (B - (b : ℤ)) with ⟨v, _⟩ | ⟨v, _⟩ <;> omega
  have e3 : a = b := by omega
  rw [e3] at hne
  exact hne rfl

end Sys2Proof.Machine
end

