-- ==== Sys2Proof/Laws/State.lean ====
section
/-! SUPPORT. One lemma per field per update of the state, so that no later proof unfolds a record update. -/

namespace Sys2Proof.Machine

/-! ### The start of a cycle -/

@[simp] theorem State.beginCycle_sel (s : State) : (s.beginCycle).sel = s.sel := rfl
@[simp] theorem State.beginCycle_tgt (s : State) : (s.beginCycle).tgt = s.tgt := rfl
@[simp] theorem State.beginCycle_eff (s : State) : (s.beginCycle).eff = s.eff := rfl
@[simp] theorem State.beginCycle_inc (s : State) : (s.beginCycle).inc = s.inc := rfl
@[simp] theorem State.beginCycle_vol (s : State) : (s.beginCycle).vol = s.vol := rfl
@[simp] theorem State.beginCycle_qen (s : State) : (s.beginCycle).qen = s.qen := rfl
@[simp] theorem State.beginCycle_note (s : State) : (s.beginCycle).note = s.note := rfl
@[simp] theorem State.beginCycle_nv (s : State) : (s.beginCycle).nv = s.nv := rfl
@[simp] theorem State.beginCycle_phase (s : State) : (s.beginCycle).phase = s.phase := rfl
@[simp] theorem State.beginCycle_out (s : State) : (s.beginCycle).out = s.out := rfl
@[simp] theorem State.beginCycle_cfgRdata (s : State) : (s.beginCycle).cfgRdata = 0 := rfl
@[simp] theorem State.beginCycle_inputs (s : State) : (s.beginCycle).inputs = s.inputs.tail := rfl
@[simp] theorem State.beginCycle_freeCtr (s : State) : (s.beginCycle).freeCtr = s.freeCtr := rfl

/-! ### A reset cycle -/

@[simp] theorem State.resetCycle_sel (s : State) : (s.resetCycle).sel = .sine := rfl
@[simp] theorem State.resetCycle_tgt (s : State) : (s.resetCycle).tgt = 0 := rfl
@[simp] theorem State.resetCycle_eff (s : State) : (s.resetCycle).eff = 0 := rfl
@[simp] theorem State.resetCycle_inc (s : State) : (s.resetCycle).inc = 0 := rfl
@[simp] theorem State.resetCycle_vol (s : State) : (s.resetCycle).vol = 0 := rfl
@[simp] theorem State.resetCycle_qen (s : State) : (s.resetCycle).qen = false := rfl
@[simp] theorem State.resetCycle_note (s : State) : (s.resetCycle).note = 0 := rfl
@[simp] theorem State.resetCycle_nv (s : State) : (s.resetCycle).nv = false := rfl
@[simp] theorem State.resetCycle_phase (s : State) : (s.resetCycle).phase = 0 := rfl
@[simp] theorem State.resetCycle_out (s : State) : (s.resetCycle).out = 0 := rfl
@[simp] theorem State.resetCycle_cfgRdata (s : State) : (s.resetCycle).cfgRdata = 0 := rfl
@[simp] theorem State.resetCycle_inputs (s : State) : (s.resetCycle).inputs = s.inputs := rfl
@[simp] theorem State.resetCycle_freeCtr (s : State) : (s.resetCycle).freeCtr = s.freeCtr := rfl

/-! ### A read -/

@[simp] theorem answerRead_sel (v : Word) (s : State) : (answerRead v s).sel = s.sel := rfl
@[simp] theorem answerRead_tgt (v : Word) (s : State) : (answerRead v s).tgt = s.tgt := rfl
@[simp] theorem answerRead_eff (v : Word) (s : State) : (answerRead v s).eff = s.eff := rfl
@[simp] theorem answerRead_inc (v : Word) (s : State) : (answerRead v s).inc = s.inc := rfl
@[simp] theorem answerRead_vol (v : Word) (s : State) : (answerRead v s).vol = s.vol := rfl
@[simp] theorem answerRead_qen (v : Word) (s : State) : (answerRead v s).qen = s.qen := rfl
@[simp] theorem answerRead_note (v : Word) (s : State) : (answerRead v s).note = s.note := rfl
@[simp] theorem answerRead_nv (v : Word) (s : State) : (answerRead v s).nv = s.nv := rfl
@[simp] theorem answerRead_phase (v : Word) (s : State) : (answerRead v s).phase = s.phase := rfl
@[simp] theorem answerRead_out (v : Word) (s : State) : (answerRead v s).out = s.out := rfl
@[simp] theorem answerRead_cfgRdata (v : Word) (s : State) : (answerRead v s).cfgRdata = v := rfl
@[simp] theorem answerRead_inputs (v : Word) (s : State) : (answerRead v s).inputs = s.inputs := rfl
@[simp] theorem answerRead_freeCtr (v : Word) (s : State) : (answerRead v s).freeCtr = s.freeCtr := rfl

/-! ### An ignored write -/

@[simp] theorem ignoreWrite_sel (s : State) : (ignoreWrite s).sel = s.sel := rfl
@[simp] theorem ignoreWrite_tgt (s : State) : (ignoreWrite s).tgt = s.tgt := rfl
@[simp] theorem ignoreWrite_eff (s : State) : (ignoreWrite s).eff = s.eff := rfl
@[simp] theorem ignoreWrite_inc (s : State) : (ignoreWrite s).inc = s.inc := rfl
@[simp] theorem ignoreWrite_vol (s : State) : (ignoreWrite s).vol = s.vol := rfl
@[simp] theorem ignoreWrite_qen (s : State) : (ignoreWrite s).qen = s.qen := rfl
@[simp] theorem ignoreWrite_note (s : State) : (ignoreWrite s).note = s.note := rfl
@[simp] theorem ignoreWrite_nv (s : State) : (ignoreWrite s).nv = s.nv := rfl
@[simp] theorem ignoreWrite_phase (s : State) : (ignoreWrite s).phase = s.phase := rfl
@[simp] theorem ignoreWrite_out (s : State) : (ignoreWrite s).out = s.out := rfl
@[simp] theorem ignoreWrite_cfgRdata (s : State) : (ignoreWrite s).cfgRdata = s.cfgRdata := rfl
@[simp] theorem ignoreWrite_inputs (s : State) : (ignoreWrite s).inputs = s.inputs := rfl
@[simp] theorem ignoreWrite_freeCtr (s : State) : (ignoreWrite s).freeCtr = s.freeCtr := rfl

/-! ### SETFREQ -/

@[simp] theorem setFrequency_sel (f : F32) (s : State) : (setFrequency f s).sel = s.sel := by
  unfold setFrequency; dsimp only; split <;> rfl
@[simp] theorem setFrequency_tgt (f : F32) (s : State) : (setFrequency f s).tgt = clampF f := by
  unfold setFrequency; dsimp only; split <;> simp_all
@[simp] theorem setFrequency_eff (f : F32) (s : State) : (setFrequency f s).eff = if quantizes s.qen (clampF f) then noteFrequency (noteOf (clampF f)) else clampF f := by
  unfold setFrequency; dsimp only; split <;> simp_all
@[simp] theorem setFrequency_inc (f : F32) (s : State) : (setFrequency f s).inc = incr (setFrequency f s).eff := by
  unfold setFrequency; dsimp only; split <;> simp_all
@[simp] theorem setFrequency_vol (f : F32) (s : State) : (setFrequency f s).vol = s.vol := by
  unfold setFrequency; dsimp only; split <;> rfl
@[simp] theorem setFrequency_qen (f : F32) (s : State) : (setFrequency f s).qen = s.qen := by
  unfold setFrequency; dsimp only; split <;> rfl
@[simp] theorem setFrequency_note (f : F32) (s : State) : (setFrequency f s).note = if quantizes s.qen (clampF f) then noteBits (noteOf (clampF f)) else 0 := by
  unfold setFrequency; dsimp only; split <;> simp_all
@[simp] theorem setFrequency_nv (f : F32) (s : State) : (setFrequency f s).nv = quantizes s.qen (clampF f) := by
  unfold setFrequency; dsimp only; split <;> simp_all
@[simp] theorem setFrequency_phase (f : F32) (s : State) : (setFrequency f s).phase = s.phase := by
  unfold setFrequency; dsimp only; split <;> rfl
@[simp] theorem setFrequency_out (f : F32) (s : State) : (setFrequency f s).out = s.out := by
  unfold setFrequency; dsimp only; split <;> rfl
@[simp] theorem setFrequency_cfgRdata (f : F32) (s : State) : (setFrequency f s).cfgRdata = s.cfgRdata := by
  unfold setFrequency; dsimp only; split <;> rfl
@[simp] theorem setFrequency_inputs (f : F32) (s : State) : (setFrequency f s).inputs = s.inputs := by
  unfold setFrequency; dsimp only; split <;> rfl
@[simp] theorem setFrequency_freeCtr (f : F32) (s : State) : (setFrequency f s).freeCtr = s.freeCtr := by
  unfold setFrequency; dsimp only; split <;> rfl

/-! ### TICK -/

@[simp] theorem emitSample_sel (s : State) : (emitSample s).sel = s.sel := rfl
@[simp] theorem emitSample_tgt (s : State) : (emitSample s).tgt = s.tgt := rfl
@[simp] theorem emitSample_eff (s : State) : (emitSample s).eff = s.eff := rfl
@[simp] theorem emitSample_inc (s : State) : (emitSample s).inc = s.inc := rfl
@[simp] theorem emitSample_vol (s : State) : (emitSample s).vol = s.vol := rfl
@[simp] theorem emitSample_qen (s : State) : (emitSample s).qen = s.qen := rfl
@[simp] theorem emitSample_note (s : State) : (emitSample s).note = s.note := rfl
@[simp] theorem emitSample_nv (s : State) : (emitSample s).nv = s.nv := rfl
@[simp] theorem emitSample_phase (s : State) : (emitSample s).phase = (nextPhase s.phase s.inc).getD (Config.freePhase s.freeCtr) := rfl
@[simp] theorem emitSample_out (s : State) : (emitSample s).out = scale ((lookup s.sel (emitSample s).phase).getD (Config.freeSample s.freeCtr)) s.vol := rfl
@[simp] theorem emitSample_cfgRdata (s : State) : (emitSample s).cfgRdata = s.cfgRdata := rfl
@[simp] theorem emitSample_inputs (s : State) : (emitSample s).inputs = s.inputs := rfl
@[simp] theorem emitSample_freeCtr (s : State) : (emitSample s).freeCtr = if (nextPhase s.phase s.inc).isSome && (lookup s.sel (emitSample s).phase).isSome then s.freeCtr else s.freeCtr + 1 := rfl

/-! ### A bus operation and a TICK in one cycle -/

@[simp] theorem mergeTick_sel (b t : State) : (mergeTick b t).sel = b.sel := rfl
@[simp] theorem mergeTick_tgt (b t : State) : (mergeTick b t).tgt = b.tgt := rfl
@[simp] theorem mergeTick_eff (b t : State) : (mergeTick b t).eff = b.eff := rfl
@[simp] theorem mergeTick_inc (b t : State) : (mergeTick b t).inc = b.inc := rfl
@[simp] theorem mergeTick_vol (b t : State) : (mergeTick b t).vol = b.vol := rfl
@[simp] theorem mergeTick_qen (b t : State) : (mergeTick b t).qen = b.qen := rfl
@[simp] theorem mergeTick_note (b t : State) : (mergeTick b t).note = b.note := rfl
@[simp] theorem mergeTick_nv (b t : State) : (mergeTick b t).nv = b.nv := rfl
@[simp] theorem mergeTick_phase (b t : State) : (mergeTick b t).phase = t.phase := rfl
@[simp] theorem mergeTick_out (b t : State) : (mergeTick b t).out = t.out := rfl
@[simp] theorem mergeTick_cfgRdata (b t : State) : (mergeTick b t).cfgRdata = b.cfgRdata := rfl
@[simp] theorem mergeTick_inputs (b t : State) : (mergeTick b t).inputs = b.inputs := rfl
@[simp] theorem mergeTick_freeCtr (b t : State) : (mergeTick b t).freeCtr = t.freeCtr := rfl

end Sys2Proof.Machine
end

