-- ==== Sys2Proof/Laws/Ops.lean ====
section
/-! SUPPORT. What the shared operations, each operation's meaning and one clock cycle do, said once. -/

namespace Sys2Proof.Machine

/-! ### Meanings -/

theorem exec_setwave (d : Word) (s : State) : exec (.setwave d) s = .next { s with sel := waveOperand d } := rfl
theorem exec_setfreq (d : Word) (s : State) : exec (.setfreq d) s = .next (setFrequency d s) := rfl
theorem exec_setvol (d : Word) (s : State) : exec (.setvol d) s = .next { s with vol := clampVolume d.toInt } := rfl
theorem exec_setquant (d : Word) (s : State) : exec (.setquant d) s = .next { s with qen := d.getLsbD 0 } := rfl
theorem exec_wrign47 (a : Addr) (d : Word) (s : State) : exec (.wrign47 a d) s = .next s := rfl
theorem exec_wrign8F (a : Addr) (d : Word) (s : State) : exec (.wrign8F a d) s = .next s := rfl
theorem exec_tick (s : State) : exec .tick s = .next (emitSample s) := rfl

/-- A decoded read answers the register its address names and changes nothing else (R72). -/
theorem exec_decodeRead (a : Addr) (x : Word) (s : State) :
    exec (decodeRead a x) s = .next (answerRead (readRegister a s) s) := by
  revert a
  apply addr_forall
  exact ⟨rfl, rfl, rfl, rfl, rfl, rfl, rfl, rfl, rfl, rfl, rfl, rfl, rfl, rfl, rfl, rfl⟩

/-- A decoded write to a read-only or reserved address changes nothing (R126). -/
theorem exec_decodeWrite_ignored (a : Addr) (d : Word) (s : State) (h : 4 ≤ a.toNat) :
    exec (decodeWrite a d) s = .next s := by
  unfold decodeWrite
  split
  · omega
  · omega
  · omega
  · omega
  · split <;> rfl

/-- What a decoded write can be: one of the four configuration writes, or nothing (R105). -/
theorem decodeWrite_cases (a : Addr) (d : Word) :
    decodeWrite a d = .setwave d ∨ decodeWrite a d = .setfreq d ∨ decodeWrite a d = .setvol d ∨ decodeWrite a d = .setquant d ∨
      4 ≤ a.toNat := by
  by_cases h : 4 ≤ a.toNat
  · simp [h]
  · have h4 : a.toNat = 0 ∨ a.toNat = 1 ∨ a.toNat = 2 ∨ a.toNat = 3 := by omega
    rcases h4 with h4 | h4 | h4 | h4 <;> simp [decodeWrite, h4]

/-! ### Shared operations -/

/-- The volume clamp is saturation (R124). -/
theorem clampVolume_toNat (v : Int) : ((clampVolume v).toNat : Int) = max 0 (min 255 v) := by
  unfold clampVolume
  have h0 : ((0 : Byte).toNat : Int) = 0 := rfl
  have h255 : ((255 : Byte).toNat : Int) = 255 := rfl
  split
  · omega
  · split
    · omega
    · rw [BitVec.toNat_ofInt]; omega

/-- The scale step as a number (R155). -/
theorem scale_toNat (s v : Byte) : (scale s v).toNat = s.toNat * v.toNat / 256 := by
  have h1 : s.toNat < 256 := s.isLt
  have h2 : v.toNat < 256 := v.isLt
  have h3 : s.toNat * v.toNat ≤ 255 * 255 := Nat.mul_le_mul (by omega) (by omega)
  simp only [scale, Nat.shiftRight_eq_div_pow, BitVec.toNat_ofNat]
  omega

/-- A cycle's pair of outcomes, where both answer a state (R93). -/
theorem bothInCycle_next (b t : State) : bothInCycle (.next b) (.next t) = .next (mergeTick b t) := rfl

/-- The bus word of the pins of a bus operation is that word. -/
@[simp] theorem busWord_ofOpWord (w : BusWord) : (Pins.ofOpWord (.bus w)).busWord = w := by
  simp [Pins.ofOpWord, Pins.busWord, busWordOf_fields]

/-! ### One clock cycle -/

theorem cycle_reset (p : Pins) (s : State) (h : p.rst = true) : cycle p s = .next s.resetCycle := by
  simp [cycle, h]

theorem cycle_idle (p : Pins) (s : State) (h : p.rst = false) (hv : p.cfgValid = false) (ht : p.tick = false) :
    cycle p s = .next s := by
  simp [cycle, h, hv, ht]

theorem cycle_bus (p : Pins) (s : State) (h : p.rst = false) (hv : p.cfgValid = true) (ht : p.tick = false) :
    cycle p s = exec (decodeBus p.busWord) s := by
  simp [cycle, h, hv, ht]

theorem cycle_tick (p : Pins) (s : State) (h : p.rst = false) (hv : p.cfgValid = false) (ht : p.tick = true) :
    cycle p s = exec .tick s := by
  simp [cycle, h, hv, ht]

theorem cycle_both (p : Pins) (s : State) (h : p.rst = false) (hv : p.cfgValid = true) (ht : p.tick = true) :
    cycle p s = bothInCycle (exec (decodeBus p.busWord) s) (exec .tick s) := by
  simp [cycle, h, hv, ht]

end Sys2Proof.Machine
end

