-- ==== Sys2Proof/Laws/PerInstr.lean ====
section
/-! SUPPORT. One law per instruction: the word it is encoded as lies in the row of the opcode table with its mnemonic (R110). -/

namespace Sys2Proof.Laws.EncodesRow

/-- The encoding lies in the instruction's own row of the opcode table; TICK, which has no bus word, is the `tick` port at 1. -/
def Statement (i : Instr) : Prop :=
  i.wellFormed = true →
    (∃ w r, encode i = .bus w ∧ r ∈ opcodeTable ∧ r.mnemonic = mnemonic i ∧ rowMatches r w = true) ∨
      (encode i = .tickPort 1 ∧ mnemonic i = "TICK")

/-- A word with fields `v`, `a`, `d` lies in a row that masks only bits of `W` and `A`. -/
theorem matches_of_fields (r : OpcodeRow) (v : Bool) (p k a : Addr) (d : Word)
    (hr : r.pattern = busWordOf v p 0 ∧ r.mask = busWordOf true k 0) (ha : a &&& k = p) :
    rowMatches r (busWordOf v a d) = true := by
  simp [rowMatches, busWordOf_and, hr.1, hr.2, ha]

theorem setwave (d : Word) : Statement (.setwave d) := fun _ =>
  .inl ⟨_, ⟨"SETWAVE", 0x1000000000, 0x1F00000000⟩, rfl, by simp [opcodeTable], rfl,
    matches_of_fields _ true 0x0 0xf 0x0 d (by decide) rfl⟩

theorem setfreq (d : Word) : Statement (.setfreq d) := fun _ =>
  .inl ⟨_, ⟨"SETFREQ", 0x1100000000, 0x1F00000000⟩, rfl, by simp [opcodeTable], rfl,
    matches_of_fields _ true 0x1 0xf 0x1 d (by decide) rfl⟩

theorem setvol (d : Word) : Statement (.setvol d) := fun _ =>
  .inl ⟨_, ⟨"SETVOL", 0x1200000000, 0x1F00000000⟩, rfl, by simp [opcodeTable], rfl,
    matches_of_fields _ true 0x2 0xf 0x2 d (by decide) rfl⟩

theorem setquant (d : Word) : Statement (.setquant d) := fun _ =>
  .inl ⟨_, ⟨"SETQUANT", 0x1300000000, 0x1F00000000⟩, rfl, by simp [opcodeTable], rfl,
    matches_of_fields _ true 0x3 0xf 0x3 d (by decide) rfl⟩

theorem wrign47 (a : Addr) (d : Word) : Statement (.wrign47 a d) := fun h =>
  have ha : a &&& 0xc = 0x4 := by
    revert h
    simp only [Instr.wellFormed, decide_eq_true_eq]
    revert a
    apply addr_forall
    decide
  .inl ⟨_, ⟨"WRIGN_4_7", 0x1400000000, 0x1C00000000⟩, rfl, by simp [opcodeTable], rfl,
    matches_of_fields _ true 0x4 0xc a d (by decide) ha⟩

theorem wrign8F (a : Addr) (d : Word) : Statement (.wrign8F a d) := fun h =>
  have ha : a &&& 0x8 = 0x8 := by
    revert h
    simp only [Instr.wellFormed, decide_eq_true_eq]
    revert a
    apply addr_forall
    decide
  .inl ⟨_, ⟨"WRIGN_8_F", 0x1800000000, 0x1800000000⟩, rfl, by simp [opcodeTable], rfl,
    matches_of_fields _ true 0x8 0x8 a d (by decide) ha⟩

theorem rdwave (x : Word) : Statement (.rdwave x) := fun _ =>
  .inl ⟨_, ⟨"RDWAVE", 0x0000000000, 0x1F00000000⟩, rfl, by simp [opcodeTable], rfl,
    matches_of_fields _ false 0x0 0xf 0x0 x (by decide) rfl⟩

theorem rdfreq (x : Word) : Statement (.rdfreq x) := fun _ =>
  .inl ⟨_, ⟨"RDFREQ", 0x0100000000, 0x1F00000000⟩, rfl, by simp [opcodeTable], rfl,
    matches_of_fields _ false 0x1 0xf 0x1 x (by decide) rfl⟩

theorem rdvol (x : Word) : Statement (.rdvol x) := fun _ =>
  .inl ⟨_, ⟨"RDVOL", 0x0200000000, 0x1F00000000⟩, rfl, by simp [opcodeTable], rfl,
    matches_of_fields _ false 0x2 0xf 0x2 x (by decide) rfl⟩

theorem rdquant (x : Word) : Statement (.rdquant x) := fun _ =>
  .inl ⟨_, ⟨"RDQUANT", 0x0300000000, 0x1F00000000⟩, rfl, by simp [opcodeTable], rfl,
    matches_of_fields _ false 0x3 0xf 0x3 x (by decide) rfl⟩

theorem rdefreq (x : Word) : Statement (.rdefreq x) := fun _ =>
  .inl ⟨_, ⟨"RDEFREQ", 0x0400000000, 0x1F00000000⟩, rfl, by simp [opcodeTable], rfl,
    matches_of_fields _ false 0x4 0xf 0x4 x (by decide) rfl⟩

theorem rdinc (x : Word) : Statement (.rdinc x) := fun _ =>
  .inl ⟨_, ⟨"RDINC", 0x0500000000, 0x1F00000000⟩, rfl, by simp [opcodeTable], rfl,
    matches_of_fields _ false 0x5 0xf 0x5 x (by decide) rfl⟩

theorem rdnote (x : Word) : Statement (.rdnote x) := fun _ =>
  .inl ⟨_, ⟨"RDNOTE", 0x0600000000, 0x1F00000000⟩, rfl, by simp [opcodeTable], rfl,
    matches_of_fields _ false 0x6 0xf 0x6 x (by decide) rfl⟩

theorem rdout (x : Word) : Statement (.rdout x) := fun _ =>
  .inl ⟨_, ⟨"RDOUT", 0x0700000000, 0x1F00000000⟩, rfl, by simp [opcodeTable], rfl,
    matches_of_fields _ false 0x7 0xf 0x7 x (by decide) rfl⟩

theorem rdrsv (a : Addr) (x : Word) : Statement (.rdrsv a x) := fun h =>
  have ha : a &&& 0x8 = 0x8 := by
    revert h
    simp only [Instr.wellFormed, decide_eq_true_eq]
    revert a
    apply addr_forall
    decide
  .inl ⟨_, ⟨"RDRSV", 0x0800000000, 0x1800000000⟩, rfl, by simp [opcodeTable], rfl,
    matches_of_fields _ false 0x8 0x8 a x (by decide) ha⟩

theorem tick : Statement .tick := fun _ => .inr ⟨rfl, rfl⟩

end Sys2Proof.Laws.EncodesRow
end

