-- ==== Sys2Proof/Laws/Quantizer.lean ====
section
/-! SUPPORT. Laws of the quantizer ROM (R67) and of the note number (R172). -/

namespace Sys2Proof.Machine

/-- The ROM has one row for each note from -36 to 125 (R67). -/
theorem quantRom_length : quantRom.length = 162 := by decide +kernel

/-- Column `F` of row `j`, counted from 0. -/
def romF (j : Nat) : F32 := (quantRom.getD j (0,0)).1

/-- Column `T` of row `j`, counted from 0. -/
def romT (j : Nat) : F32 := (quantRom.getD j (0,0)).2

/-- The frequency of a note, by its row. -/
theorem noteFrequency_eq (n : Int) : noteFrequency n = romF (n + 36).toNat := by
  simp [noteFrequency, romF, firstNote]

/-- The threshold of a note, by its row. -/
theorem noteThreshold_eq (n : Int) : noteThreshold n = romT (n + 36).toNat := by
  simp [noteThreshold, romT, firstNote]

/-- Every entry of the ROM is a finite number without sign. -/
theorem rom_finite : ∀ j < 162, (romF j).toNat < 0x7F800000 ∧ (romT j).toNat < 0x7F800000 := by decide +kernel

/-- Each note lies above the threshold before it and not above its own. -/
theorem rom_order : ∀ j < 161, (romT j).toNat < (romF (j+1)).toNat ∧ (romF (j+1)).toNat ≤ (romT (j+1)).toNat := by decide +kernel

/-- The first note is at least 1.0. -/
theorem rom_first : (0x3F800000 : F32).toNat ≤ (romF 0).toNat ∧ (romF 0).toNat ≤ (romT 0).toNat := by decide +kernel

/-- FMAX belongs to a note of the ROM (R174). -/
theorem rom_last : (fMax).toNat ≤ (romT 161).toNat := by decide +kernel

/-- The twelfth power of a note's frequency lies between those of the midpoints to its neighbours: `F(n)^12 = 440^12 * 2^(n - 69)` up to rounding (R173). -/
theorem rom_F12 : ∀ j < 162,
    (magUnits (romF j) + magUnits (romF j - 1)) ^ 12 * 2^105 < (2*440 * 2^149)^12 * 2^j ∧
    (2*440 * 2^149)^12 * 2^j < (magUnits (romF j) + magUnits (romF j + 1)) ^ 12 * 2^105 := by decide +kernel

/-- The twenty-fourth power of a note's upper boundary, `440^24 * 2^(2(n - 69) + 1)`, lies between those of the threshold and of the next pattern (R67). -/
theorem rom_T24 : ∀ j < 162,
    (magUnits (romT j))^24 * 2^209 < (440 * 2^149)^24 * 2^(2*j) ∧
    (440 * 2^149)^24 * 2^(2*j) < (magUnits (romT j + 1))^24 * 2^209 := by decide +kernel

/-- The comparison of the machine, as one of magnitudes. -/
theorem leMag_iff (x y : F32) : leMag x y = true ↔ magUnits x ≤ magUnits y := by simp [leMag]

/-- The row of a frequency: the first whose threshold is not below it (R172). -/
theorem noteOf_spec (f : F32) (hs : signBit f = false) (hle : f.toNat ≤ (romT 161).toNat) :
    ∃ j : ℕ, j < 162 ∧ noteOf f = (j : ℤ) - 36 ∧ f.toNat ≤ (romT j).toNat ∧ ∀ i : ℕ, i < j → (romT i).toNat < f.toNat := by
  have hlen := quantRom_length
  have conv : ∀ i, i < 162 → (leMag f (romT i) = true ↔ f.toNat ≤ (romT i).toNat) := by
    intro i hi
    rw [leMag_iff, magUnits_le_iff hs ((plus_finite_iff _).2 (rom_finite i hi).2).1]
  have get : ∀ i (h : i < quantRom.length), (quantRom[i]).2 = romT i := by
    intro i h; simp [romT, List.getD_eq_getElem?_getD, List.getElem?_eq_getElem h]
  have hlt : quantRom.findIdx (fun row => leMag f row.2) < quantRom.length := by
    rw [List.findIdx_lt_length]
    refine ⟨quantRom[161]'(by omega), List.getElem_mem _, ?_⟩
    rw [get, conv _ (by omega)]; exact hle
  refine ⟨quantRom.findIdx (fun row => leMag f row.2), by omega, ?_, ?_, ?_⟩
  · unfold noteOf firstNote; omega
  · have := List.findIdx_getElem (w := hlt)
    rw [get, conv _ (by omega)] at this
    exact this
  · intro i hi
    have h1 := List.not_of_lt_findIdx hi
    rw [get] at h1
    have h2 := conv i (by omega)
    by_contra hc
    have := h2.2 (by omega)
    rw [this] at h1
    cases h1

/-- A pattern is the rounding of every real strictly between the midpoints to its neighbours. -/
theorem isRN32_of_between (x : F32) (r : ℝ) (hx : x.toNat < 0x7F800000) (h0 : 0 < x.toNat)
    (hlo : (magUnits x + magUnits (x - 1) : ℝ) < 2 * (r * 2 ^ 149))
    (hhi : 2 * (r * 2 ^ 149) < (magUnits x + magUnits (x + 1) : ℝ)) : IsRN32 r x := by
  have hfx := (plus_finite_iff x).2 hx
  refine ⟨hfx.1, hfx.2, fun y hy hyf => ?_⟩
  have e1 : (x - 1).toNat = x.toNat - 1 := by bv_omega
  have e2 : (x + 1).toNat = x.toNat + 1 := by bv_omega
  have s1 : signBit (x - 1) = false := by rw [signBit_false_iff]; omega
  have s2 : signBit (x + 1) = false := by rw [signBit_false_iff]; omega
  have conv : ∀ z : F32, signBit z = false → |(f32Value z : ℝ) - r| = |(magUnits z : ℝ) - r * 2 ^ 149| / 2 ^ 149 := by
    intro z hz
    rw [f32Value_eq_units z hz]
    push_cast
    have e : (magUnits z : ℝ) / 2 ^ 149 - r = ((magUnits z : ℝ) - r * 2 ^ 149) / 2 ^ 149 := by field_simp
    rw [e, abs_div, abs_of_pos (show (0 : ℝ) < 2 ^ 149 by positivity)]
  rw [conv x hfx.1, conv y hy, div_le_div_iff_of_pos_right (by positivity), div_left_inj' (by positivity)]
  generalize r * 2 ^ 149 = R at *
  by_cases hxy : y = x
  · subst hxy; exact ⟨le_refl _, fun _ => .inl rfl⟩
  · have hlt : |(magUnits x : ℝ) - R| < |(magUnits y : ℝ) - R| := by
      rcases Nat.lt_or_gt_of_ne (fun h => hxy (BitVec.eq_of_toNat_eq h)) with h | h
      · have : (magUnits y : ℝ) ≤ magUnits (x - 1) := by
          exact_mod_cast (magUnits_le_iff hy s1).2 (by omega)
        have hm : (magUnits (x - 1) : ℝ) < magUnits x := by exact_mod_cast (magUnits_lt_iff s1 hfx.1).2 (by omega)
        rcases abs_cases ((magUnits x : ℝ) - R) with ⟨u, _⟩ | ⟨u, _⟩ <;>
          rcases abs_cases ((magUnits y : ℝ) - R) with ⟨v, _⟩ | ⟨v, _⟩ <;> linarith
      · have : (magUnits (x + 1) : ℝ) ≤ magUnits y := by
          exact_mod_cast (magUnits_le_iff s2 hy).2 (by omega)
        have hm : (magUnits x : ℝ) < magUnits (x + 1) := by exact_mod_cast (magUnits_lt_iff hfx.1 s2).2 (by omega)
        rcases abs_cases ((magUnits x : ℝ) - R) with ⟨u, _⟩ | ⟨u, _⟩ <;>
          rcases abs_cases ((magUnits y : ℝ) - R) with ⟨v, _⟩ | ⟨v, _⟩ <;> linarith
    exact ⟨hlt.le, fun h => absurd h hlt.ne⟩

/-- A boundary given by its twenty-fourth power lies between the threshold of its row and the next pattern. -/
theorem threshold_between (j : ℕ) (hj : j < 162) (r : ℝ) (hr0 : 0 < r) (hr : r ^ 24 * 2 ^ 209 = 440 ^ 24 * 2 ^ (2 * j)) :
    (magUnits (romT j) : ℝ) < r * 2 ^ 149 ∧ r * 2 ^ 149 < magUnits (romT j + 1) := by
  obtain ⟨a, b⟩ := rom_T24 j hj
  have e : (r * 2 ^ 149) ^ 24 * 2 ^ 209 = ((440 * 2 ^ 149) ^ 24 * 2 ^ (2 * j) : ℝ) := by
    rw [show (r * 2 ^ 149) ^ 24 * 2 ^ 209 = (2 ^ 149) ^ 24 * (r ^ 24 * 2 ^ 209) by ring, hr]; ring
  constructor
  · have a' : (magUnits (romT j) : ℝ) ^ 24 * 2 ^ 209 < (r * 2 ^ 149) ^ 24 * 2 ^ 209 := by rw [e]; exact_mod_cast a
    exact lt_of_pow_lt_pow_left₀ 24 (by positivity) (lt_of_mul_lt_mul_right a' (by positivity))
  · have b' : (r * 2 ^ 149) ^ 24 * 2 ^ 209 < (magUnits (romT j + 1) : ℝ) ^ 24 * 2 ^ 209 := by rw [e]; exact_mod_cast b
    exact lt_of_pow_lt_pow_left₀ 24 (by positivity) (lt_of_mul_lt_mul_right b' (by positivity))

end Sys2Proof.Machine
end

