-- ==== Sys2Proof/Tests/Slice0.lean ====
section
/-! SUPPORT. The modeller's own tests. Expected values come from the spec: words from R95, R108 and R110, results from the tables of
95_test_vectors.md, named by their section. The witnesses show that the hypotheses of each statement can be met. -/

namespace Sys2Proof.Machine.Tests

/-! ### Well-formedness: each check refuses an ill-formed term -/

theorem test_wf_wrign47_low : (Instr.wrign47 3 0).wellFormed = false := by decide
theorem test_wf_wrign47_high : (Instr.wrign47 8 0).wellFormed = false := by decide
theorem test_wf_wrign8F_low : (Instr.wrign8F 7 0).wellFormed = false := by decide
theorem test_wf_rdrsv_low : (Instr.rdrsv 7 0).wellFormed = false := by decide

/-! ### Decoding: `W`, then `A` in four bits, then `D` in thirty-two (R95), each written out -/

theorem test_decode_setwave : decodeBus 0b1000000000000000000000000000000000010 = .setwave 2 := by decide
theorem test_decode_setfreq : decodeBus 0b1000101000011111010010000000000000000 = .setfreq 0x43E90000 := by decide
theorem test_decode_setvol : decodeBus 0b1001011111111111111111111111111110110 = .setvol 0xFFFFFFF6 := by decide
theorem test_decode_setquant : decodeBus 0b1001100000000000000000000000000000001 = .setquant 1 := by decide
theorem test_decode_wrign47 :
    decodeBus 0b1010000000000000000000000000000000000 = .wrign47 4 0 ∧
    decodeBus 0b1011100000000000000000000000011111111 = .wrign47 7 0xFF := by decide
theorem test_decode_wrign8F :
    decodeBus 0b1100000000000000000000000000000000001 = .wrign8F 8 1 ∧
    decodeBus 0b1111111111111111111111111111111111111 = .wrign8F 15 0xFFFFFFFF := by decide
theorem test_decode_rdwave : decodeBus 0b0000000000000000000000000000000000000 = .rdwave 0 := by decide
theorem test_decode_rdfreq : decodeBus 0b0000100000000000000000000000000000000 = .rdfreq 0 := by decide
theorem test_decode_rdvol : decodeBus 0b0001000000000000000000000000000000000 = .rdvol 0 := by decide
theorem test_decode_rdquant : decodeBus 0b0001100000000000000000000000000000000 = .rdquant 0 := by decide
theorem test_decode_rdefreq : decodeBus 0b0010000000000000000000000000000000000 = .rdefreq 0 := by decide
theorem test_decode_rdinc : decodeBus 0b0010100000000000000000000000000000000 = .rdinc 0 := by decide
theorem test_decode_rdnote : decodeBus 0b0011000000000000000000000000000000000 = .rdnote 0 := by decide
theorem test_decode_rdout : decodeBus 0b0011100010010001101000101011001111000 = .rdout 0x12345678 := by decide
theorem test_decode_rdrsv :
    decodeBus 0b0100000000000000000000000000000000000 = .rdrsv 8 0 ∧
    decodeBus 0b0111100000000000000000000000000000000 = .rdrsv 15 0 := by decide
theorem test_decode_tick : decode (.tickPort 1) = .ok .tick ∧ decode (.tickPort 0) = .error .tickPortLow := by decide

/-- The opcode table's numbering (R111): TICK has one bit, a bus word 37. -/
theorem test_decodeTableWord :
    decodeTableWord 8 1 = some .tick ∧ decodeTableWord 8 0 = none ∧ decodeTableWord 40 0x1143E90000 = some (.setfreq 0x43E90000) ∧
    decodeTableWord 40 0x2000000000 = none := by decide

/-! ### States and checks for the tests below -/

/-- The state of 95_test_vectors.md section 7, with the PHASE of the end of P5. -/
def reading : State :=
  { State.reset with
    sel := .triangle, tgt := 0x43E28000, eff := 0x43E914F6, inc := 0x40AD3057, vol := 200, qen := true, note := 70, nv := true,
    phase := 0x422377EF, out := 182 }

/-- The reset state with the four inputs of a TICK (R158) as given. -/
def ticking (phase inc : F32) (sel : Waveform) (vol : Byte) : State :=
  { State.reset with phase := phase, inc := inc, sel := sel, vol := vol }

/-- The outcome is a next state, and it passes the check. -/
def nextWith (check : State → Bool) (o : Host.Outcome State Fault Refusal) : Bool :=
  match o with
  | .next t => check t
  | _ => false

/-- The bus pins of a word, with `rst` and `tick` as given. -/
def pinsOf (rst tick : Bool) (w : BusWord) : Pins := { Pins.ofOpWord (.bus w) with rst := rst, tick := tick }

/-! ### Writes (95_test_vectors.md sections 2 to 6) -/

theorem test_setwave_ignores_high_bits :
    nextWith (fun t => t.sel == .sine) (exec (.setwave 4) { State.reset with sel := .sawtooth }) = true := by decide
theorem test_setwave_codes :
    nextWith (fun t => t.sel == .square) (exec (.setwave 1) State.reset) = true ∧
    nextWith (fun t => t.sel == .sawtooth) (exec (.setwave 2) State.reset) = true ∧
    nextWith (fun t => t.sel == .triangle) (exec (.setwave 0xFFFFFFFF) State.reset) = true := by decide

/-- Section 3.1: 453.0 unquantized. -/
theorem test_setfreq_unquantized :
    nextWith (fun t => t.tgt == 0x43E28000 && t.eff == 0x43E28000 && t.inc == 0x40A84C59 && t.note == 0 && !t.nv)
      (exec (.setfreq 0x43E28000) State.reset) = true := by decide +kernel
/-- Section 3.2: 1.0 quantized, note -36. -/
theorem test_setfreq_quantized :
    nextWith (fun t => t.tgt == 0x3F800000 && t.eff == 0x3F82D013 && t.inc == 0x3C4265DC && t.note == 0xDC && t.nv)
      (exec (.setfreq 0x3F800000) { State.reset with qen := true }) = true := by decide +kernel

theorem test_setvol_300 : nextWith (fun t => t.vol == 255) (exec (.setvol 0x12C) State.reset) = true := by decide
theorem test_setvol_minus_10 : nextWith (fun t => t.vol == 0) (exec (.setvol 0xFFFFFFF6) reading) = true := by decide

theorem test_setquant_bit_zero : nextWith (fun t => t.qen == false) (exec (.setquant 2) reading) = true := by decide
/-- Section 5: the effective frequency is not quantized again. -/
theorem test_setquant_not_retroactive :
    nextWith (fun t => t.qen && t.eff == 0x43E90000) (exec (.setquant 1) { State.reset with eff := 0x43E90000 }) = true := by decide

theorem test_wrign47 : nextWith (fun t => t == reading) (exec (.wrign47 6 0x45) reading) = true := by decide
theorem test_wrign8F : nextWith (fun t => t == reading) (exec (.wrign8F 15 0xFFFFFFFF) reading) = true := by decide

/-! ### Reads (section 7) -/

theorem test_rdwave : nextWith (fun t => t.cfgRdata == 0x00000003) (exec (.rdwave 0) reading) = true := by decide
theorem test_rdwave_square :
    nextWith (fun t => t.cfgRdata == 0x00000001) (exec (.rdwave 0) { reading with sel := .square }) = true := by decide
theorem test_rdfreq : nextWith (fun t => t.cfgRdata == 0x43E28000) (exec (.rdfreq 0) reading) = true := by decide
theorem test_rdvol : nextWith (fun t => t.cfgRdata == 0x000000C8) (exec (.rdvol 0) reading) = true := by decide
theorem test_rdquant : nextWith (fun t => t.cfgRdata == 0x00000001) (exec (.rdquant 0) reading) = true := by decide
theorem test_rdefreq : nextWith (fun t => t.cfgRdata == 0x43E914F6) (exec (.rdefreq 0) reading) = true := by decide
theorem test_rdinc : nextWith (fun t => t.cfgRdata == 0x40AD3057) (exec (.rdinc 0) reading) = true := by decide
theorem test_rdnote : nextWith (fun t => t.cfgRdata == 0x00000146) (exec (.rdnote 0) reading) = true := by decide
theorem test_rdnote_negative :
    nextWith (fun t => t.cfgRdata == 0x000001DC) (exec (.rdnote 0) { reading with note := 0xDC }) = true := by decide
theorem test_rdout : nextWith (fun t => t.cfgRdata == 0x000000B6) (exec (.rdout 0x12345678) reading) = true := by decide
theorem test_rdrsv : nextWith (fun t => t.cfgRdata == 0) (exec (.rdrsv 15 0) { reading with cfgRdata := 5 }) = true := by decide

/-! ### TICK (section 8.1) and whole cycles (section 10) -/

/-- A sum that rounds up to 256.0, then wraps. -/
theorem test_tick_rounds_up_and_wraps :
    nextWith (fun t => t.phase == 0 && t.out == 127 && t.freeCtr == 0) (exec .tick (ticking 0x437FFFFF 0x37000000 .sine 255)) = true := by
  decide +kernel
/-- A tie that rounds to even, back to the start value. -/
theorem test_tick_tie :
    nextWith (fun t => t.phase == 0x437FFFFF && t.out == 254) (exec .tick (ticking 0x437FFFFF 0x36800000 .sawtooth 255)) = true := by
  decide +kernel

/-- P6, fifth line: the tick uses the old increment. -/
theorem test_cycle_write_and_tick :
    nextWith (fun t => t.phase == 0x40000000 && t.inc == 0x40000000 && t.out == 1)
      (step { ticking 0x3F800000 0x3F800000 .sawtooth 255 with inputs := [pinsOf false true 0x11432C4400] }) = true := by decide +kernel
/-- P6, seventh line: the read returns the old output. -/
theorem test_cycle_read_and_tick :
    nextWith (fun t => t.cfgRdata == 3 && t.out == 5)
      (step { ticking 0x40800000 0x40000000 .sawtooth 255 with out := 3, inputs := [pinsOf false true 0x0700000000] }) = true := by
  decide +kernel
/-- P7, first line: reset wins. -/
theorem test_cycle_reset_wins :
    nextWith (fun t => t == State.reset) (step { reading with inputs := [pinsOf true true 0x12000000FF] }) = true := by decide
/-- Section 4, as the first operation after reset. -/
theorem test_withFetchWord :
    nextWith (fun t => t.vol == 255) (step (State.reset.withFetchWord 40 0x12000000FF)) = true := by decide

/-! ### Numbers, tables, names and text -/

/-- Section 3.1: 10000.0, and the smallest subnormal. -/
theorem test_incr : incr 0x461C4000 = 0x42E83315 ∧ incr 0x00000001 = 0 := by decide +kernel
/-- Section 9: 100.0 is G2. -/
theorem test_noteOf : noteOf 0x42C80000 = 43 ∧ noteName 43 = "G2" := by decide +kernel
/-- S15: the sine table around its middle. -/
theorem test_sine : waveRom .sine 0 = 128 ∧ waveRom .sine 127 = 131 ∧ waveRom .sine 129 = 124 := by decide +kernel
/-- P4: a literal without a sign bit, a negative one, a comment. -/
theorem test_assemble_setfreq :
    assembleLine "setfreq -5.0 ; below zero".toList = some [pinsOf false false 0x11C0A00000] := by decide +kernel
/-- R11 with R108: literals from the largest finite value to below `2^128` give that value; R11 states nothing for `1e39`. -/
theorem test_assemble_largest :
    assembleLine "setfreq 3.4028236e38".toList = some [pinsOf false false 0x117F7FFFFF] ∧
    assembleLine "setfreq 1e39".toList = none := by decide +kernel
/-- P1: `ticks 2` is two cycles. -/
theorem test_assemble_ticks :
    assembleLine "ticks 2".toList = some [Pins.ofOpWord (.tickPort 1), Pins.ofOpWord (.tickPort 1)] := by decide +kernel

/-! ### Witnesses: for each statement with hypotheses, a state and operands that meet them

They are named after the statement; a statement of several clauses has one at the edge of each. -/

/-- DecodeEncodeAgree, AssemblerLinesRunTheirOperations: the ends of each address range. -/
theorem witness_wellFormed :
    (Instr.wrign47 4 0).wellFormed = true ∧ (Instr.wrign47 7 0).wellFormed = true ∧ (Instr.wrign8F 8 0).wellFormed = true ∧
    (Instr.wrign8F 15 0).wellFormed = true ∧ (Instr.rdrsv 8 0).wellFormed = true ∧ (Instr.rdrsv 15 0).wellFormed = true ∧
    (Instr.setfreq 0).wellFormed = true ∧ Instr.setfreq 0 ≠ .tick := by decide

/-- DecodeFollowsMatchAndMask: a word for each mask and pattern, the last bit of each range included. -/
theorem witness_DecodeFollowsMatchAndMask :
    ∀ r ∈ opcodeTable, rowMatches r r.pattern = true ∧ rowMatches r (r.pattern ||| ~~~ r.mask) = true := by decide

/-- `reading`, with one cycle's pins. -/
def reading1 (p : Pins) : State := { reading with inputs := [p] }

/-- StepRunsTheDecodedOperation: a bus operation, a tick, both, neither. -/
theorem witness_StepRunsTheDecodedOperation :
    let b := reading1 (pinsOf false false 0x1FFFFFFFFF)
    let k := reading1 { Pins.idle with tick := true }
    let w := reading1 (pinsOf false true 0x0000000000)
    (b.pins.rst = false ∧ b.pins.cfgValid = true ∧ b.pins.tick = false ∧
      decode (.bus b.pins.busWord) = .ok (.wrign8F 15 0xFFFFFFFF)) ∧
    (k.pins.rst = false ∧ k.pins.cfgValid = false ∧ k.pins.tick = true) ∧
    (w.pins.rst = false ∧ w.pins.cfgValid = true ∧ w.pins.tick = true ∧ decode (.bus w.pins.busWord) = .ok (.rdwave 0)) ∧
    (reading.pins.rst = false ∧ reading.pins.cfgValid = false ∧ reading.pins.tick = false) := by decide

/-- PlacedWordRunsNext: the tick port and both ends of the bus words. -/
theorem witness_PlacedWordRunsNext :
    decodeTableWord 1 1 = some .tick ∧ decodeTableWord 37 0 = some (.rdwave 0) ∧
    decodeTableWord 37 (2 ^ 37 - 1) = some (.wrign8F 15 0xFFFFFFFF) := by decide

/-- OneClockCycle, ResetCycle: a reset cycle, and one without reset. After the reset cycle another one comes. -/
theorem witness_ResetCycle :
    (reading1 (pinsOf true true 0x12000000FF)).pins.rst = true ∧ (reading1 (pinsOf false true 0x12000000FF)).pins.rst = false ∧
    nextWith (fun t => t.pins.rst)
      (step { reading with inputs := [pinsOf true false 0, pinsOf true false 0] }) = true := by decide

/-- HeldTickPerformsThatManyTicks: two ticks, then a write. -/
theorem witness_HeldTick :
    ({ reading with inputs := [Pins.ofOpWord (.tickPort 1), Pins.ofOpWord (.tickPort 1), pinsOf false false 0] } : State).inputs =
      List.replicate (1 + 1) { Pins.idle with tick := true } ++ [pinsOf false false 0] := by decide

/-- DacOutChangesOnlyByTickOrReset, PhaseIsOutOfReachOfTheBus: a write cycle without tick and reset. -/
theorem witness_DacOut :
    nextWith (fun t => t.vol == 255) (step (reading1 (pinsOf false false 0x12000000FF))) = true ∧
    (reading1 (pinsOf false false 0x12000000FF)).pins.rst = false ∧
    (reading1 (pinsOf false false 0x12000000FF)).pins.tick = false := by decide

/-- SetfreqResult: 1.0 is quantized, the pattern below 1.0 is not; with QEN = 0 nothing is. -/
theorem witness_SetfreqResult :
    (reading.qen = true ∧ leMag oneHz (clampF 0x3F800000) = true) ∧
    ¬ (reading.qen = true ∧ leMag oneHz (clampF 0x3F7FFFFF) = true) ∧
    ¬ (State.reset.qen = true ∧ leMag oneHz (clampF 0x43DC0000) = true) := by decide

/-- FrequencyClamp: each of the clauses on the kind of pattern. -/
theorem witness_FrequencyClamp_kinds :
    isNaN 0x7FC00000 = true ∧ (isInf 0xFF800000 = true ∧ signBit 0xFF800000 = true) ∧
    (isInf 0x7F800000 = true ∧ signBit 0x7F800000 = false) ∧
    isFinite 0x80000000 = true ∧ isFinite 0x00000001 = true ∧ isFinite 0x462C4400 = true ∧ isFinite 0x462C4401 = true := by decide

/-- FrequencyClamp: both zeros, the smallest positive number, FMAX, and the pattern above it. -/
theorem witness_FrequencyClamp_ranges :
    f32Value 0x80000000 ≤ 0 ∧ f32Value 0 ≤ 0 ∧ (0 < f32Value 0x00000001 ∧ f32Value 0x00000001 ≤ 11025) ∧
    (0 < f32Value 0x462C4400 ∧ f32Value 0x462C4400 ≤ 11025) ∧ 11025 < f32Value 0x462C4401 := by
  have h1 : magUnits 0x00000001 = 1 := by decide +kernel
  have h2 : magUnits 0x462C4400 = 11025 * 2 ^ 149 := by decide +kernel
  have h3 : magUnits 0x462C4401 = 11025 * 2 ^ 149 + 2 ^ 139 := by decide +kernel
  have h4 : magUnits 0x80000000 = 0 := by decide +kernel
  have h5 : magUnits 0 = 0 := by decide +kernel
  rw [f32Value_neg 0x80000000 (by decide), f32Value_eq_units 0 (by decide), f32Value_eq_units 0x00000001 (by decide),
    f32Value_eq_units 0x462C4400 (by decide), f32Value_eq_units 0x462C4401 (by decide), h1, h2, h3, h4, h5]
  norm_num

/-- SetwaveResult: a D for each code. ReadsOfConfiguration: `reading` has SEL = triangle, the reset state sine, and SETWAVE gives the
others. -/
theorem witness_SetwaveResult :
    (0xFFFFFFFC : Word).extractLsb' 0 2 = 0 ∧ (1 : Word).extractLsb' 0 2 = 1 ∧ (2 : Word).extractLsb' 0 2 = 2 ∧
    (0xFFFFFFFF : Word).extractLsb' 0 2 = 3 ∧ State.reset.sel = .sine ∧ reading.sel = .triangle ∧
    (ticking 0 0 .square 0).sel = .square ∧ (ticking 0 0 .sawtooth 0).sel = .sawtooth := by decide

/-- IncrementIsRoundedOnce: the smallest and the largest effective frequency. -/
theorem witness_IncrementIsRoundedOnce :
    (plusZeroOrPositive 0 ∧ leMag 0 0x462E9D37 = true) ∧
    (plusZeroOrPositive 0x462E9D37 ∧ leMag 0x462E9D37 0x462E9D37 = true) := by decide +kernel

/-- The state of section 7 meets the invariants (ReadsOfFrequencies, EveryCycleKeepsTheInvariants). -/
theorem witness_inv : reading.Inv where
  volume := by decide
  phase_number := by decide
  phase_below_table := by decide +kernel
  increment := by decide +kernel
  target_number := by decide
  target_clamped := by decide +kernel
  unquantized := by decide
  quantized := by decide +kernel
  increment_number := by decide
  increment_below := by decide +kernel
  output := by decide

/-- With an unquantized frequency too (ReadOfNote). -/
theorem witness_inv_unquantized :
    let s : State := { reading with qen := false, tgt := 0x43E28000, eff := 0x43E28000, inc := 0x40A84C59, note := 0, nv := false }
    s.Inv ∧ s.nv = false := by
  refine ⟨?_, rfl⟩
  constructor
  case volume => decide
  case phase_number => decide
  case phase_below_table => decide +kernel
  case increment => decide +kernel
  case target_number => decide
  case target_clamped => decide +kernel
  case unquantized => decide
  case quantized => decide
  case increment_number => decide
  case increment_below => decide +kernel
  case output => decide

/-- EveryCycleKeepsTheInvariants: that state takes a step. -/
theorem witness_step : nextWith (fun t => t == { reading with cfgRdata := 0 }) (step reading) = true := by decide

/-- ReadOfOutput: a read of the output in the cycle of a TICK. -/
theorem witness_ReadOfOutput :
    (reading1 (pinsOf false true 0x0712345678)).inputs =
      { Pins.ofOpWord (encode (.rdout 0x12345678)) with tick := true } :: [] := by decide

/-- ReadsAreSilentAndWritesIdempotent: a read, and writes at addresses 0, 4 and 15. -/
theorem witness_ReadsAreSilent :
    fieldW 0x0700000000 = false ∧ fieldW 0x1000000000 = true ∧ (fieldW 0x1400000000 = true ∧ 4 ≤ (fieldA 0x1400000000).toNat) ∧
    (fieldW 0x1F00000000 = true ∧ 4 ≤ (fieldA 0x1F00000000).toNat) := by decide

/-- OnlyTheNamedOperationsWrite: each element is changed by some operation from the reset state or from `reading`. -/
theorem witness_OnlyTheNamedOperationsWrite :
    nextWith (fun t => t.sel != State.reset.sel) (exec (.setwave 3) State.reset) = true ∧
    nextWith (fun t => t.tgt != reading.tgt && t.eff != reading.eff && t.inc != reading.inc && t.note != reading.note)
      (exec (.setfreq 0x3F800000) reading) = true ∧
    nextWith (fun t => t.nv != reading.nv) (exec (.setfreq 0) reading) = true ∧
    nextWith (fun t => t.vol != reading.vol) (exec (.setvol 1) reading) = true ∧
    nextWith (fun t => t.qen != reading.qen) (exec (.setquant 0) reading) = true ∧
    nextWith (fun t => t.phase != reading.phase && t.out != reading.out) (exec .tick reading) = true ∧
    nextWith (fun t => t.cfgRdata != reading.cfgRdata) (exec (.rdvol 0) reading) = true := by decide +kernel

/-- OnlyTheNamedOperationsWrite, the clause on the counter of free values: a TICK with an infinite phase moves it. -/
theorem witness_free_value :
    ∃ t, exec .tick (ticking 0x7F800000 0 .sine 0) = .next t ∧ t.freeCtr = 1 :=
  ⟨_, rfl, by
    have h : nextPhase 0x7F800000 0 = none := by decide +kernel
    simp only [emitSample, ticking, h, Option.isSome_none, Bool.false_and, Bool.false_eq_true, if_false, State.reset]⟩

/-- TickReadsFourElements: two states that agree on the four inputs of the TICK and differ elsewhere. -/
theorem witness_TickReadsFourElements :
    let u := { reading with tgt := 0, out := 1, qen := false, nv := false }
    plusZeroOrPositive reading.phase ∧ magUnits reading.phase < 256 * unitsPerOne ∧ plusZeroOrPositive reading.inc ∧
    magUnits reading.inc < 256 * unitsPerOne ∧ u.phase = reading.phase ∧ u.inc = reading.inc ∧ u.sel = reading.sel ∧
    u.vol = reading.vol ∧ u ≠ reading := by decide +kernel

/-- 255.0 and 1.0 as numbers. -/
theorem values_at_the_wrap : f32Value 0x437F0000 = 255 ∧ f32Value 0x3F800000 = 1 ∧ f32Value 0x437FFFFF < 256 ∧ f32Value 0 = 0 := by
  have h1 : magUnits 0x437F0000 = 255 * 2 ^ 149 := by decide +kernel
  have h2 : magUnits 0x3F800000 = 2 ^ 149 := by decide +kernel
  have h3 : magUnits 0x437FFFFF = 255 * 2 ^ 149 + (2 ^ 16 - 1) * 2 ^ 133 := by decide +kernel
  have h4 : magUnits 0 = 0 := by decide +kernel
  rw [f32Value_eq_units 0x437F0000 (by decide), f32Value_eq_units 0x3F800000 (by decide), f32Value_eq_units 0x437FFFFF (by decide),
    f32Value_eq_units 0 (by decide), h1, h2, h3, h4]
  norm_num

/-- TickResult: the largest phase and 255.0 + 1.0, whose sum is exactly 256 (both sides of the wrap: test_tick_tie stays below,
test_tick_rounds_up_and_wraps reaches it). -/
theorem witness_TickResult :
    (let s := ticking 0x437F0000 0x3F800000 .sawtooth 1
     plusZeroOrPositive s.phase ∧ f32Value s.phase < 256 ∧ plusZeroOrPositive s.inc ∧ f32Value s.inc < 256) ∧
    (let s := ticking 0x437FFFFF 0 .sine 255
     plusZeroOrPositive s.phase ∧ f32Value s.phase < 256 ∧ plusZeroOrPositive s.inc ∧ f32Value s.inc < 256) := by
  obtain ⟨h1, h2, h3, h4⟩ := values_at_the_wrap
  refine ⟨⟨by decide, ?_, by decide, ?_⟩, by decide, ?_, by decide, ?_⟩
  · show f32Value 0x437F0000 < 256; rw [h1]; norm_num
  · show f32Value 0x3F800000 < 256; rw [h2]; norm_num
  · exact h3
  · show f32Value 0 < 256; rw [h4]; norm_num

/-- TickAlwaysCompletes: at volume 0. -/
theorem witness_TickAlwaysCompletes : (ticking 0x437FFFFF 0 .sine 0).vol = 0 := rfl

/-- ScaleStep: a lower and a higher volume. -/
theorem witness_ScaleStep : (254 : Byte).toNat ≤ (255 : Byte).toNat := by decide

/-- PhaseIsExactForDyadicIncrements: increment 1.0 from phase 0. -/
theorem witness_PhaseIsExact :
    let s := ticking 0 0x3F800000 .sine 255
    s.phase = 0 ∧ plusZeroOrPositive s.inc ∧ f32Value s.inc = ((2 ^ 15 : Nat) : ℚ) / 2 ^ 15 ∧ f32Value s.inc < 256 := by
  refine ⟨rfl, by decide, ?_, ?_⟩
  · show f32Value 0x3F800000 = _; rw [values_at_the_wrap.2.1]; norm_num
  · show f32Value 0x3F800000 < 256; rw [values_at_the_wrap.2.1]; norm_num

/-- RoundingIsNearestEven: 0, and the last whole number of units below `2^128`. -/
theorem witness_RoundingIsNearestEven :
    (0 < 22050 ∧ ((0 : Nat) : ℝ) / (22050 : Nat) / 2 ^ 149 < 2 ^ 128) ∧
    (0 < 1 ∧ ((2 ^ 277 - 1 : Nat) : ℝ) / (1 : Nat) / 2 ^ 149 < 2 ^ 128) := by
  have h : ((2 ^ 277 - 1 : Nat) : ℝ) < 2 ^ 277 := by exact_mod_cast (by decide +kernel : 2 ^ 277 - 1 < 2 ^ 277)
  refine ⟨by norm_num, by norm_num, ?_⟩
  rw [Nat.cast_one, div_one, div_lt_iff₀ (by positivity), ← pow_add]
  exact h

/-- The ends of the quantizer's rows (NoteFrequencyIsRoundedOnce, QuantizerRomRows, QuantizedFrequencyIsAFixedPoint), and a finite
frequency. -/
theorem witness_rows :
    ((-36 : Int) ≤ -36 ∧ (-36 : Int) ≤ 125) ∧ ((-36 : Int) ≤ 125 ∧ (125 : Int) ≤ 125) ∧ ((-36 : Int) ≤ 113 ∧ (113 : Int) + 12 ≤ 125) ∧
    ((-36 : Int) ≤ 124 ∧ (124 : Int) ≤ 124) ∧ isFinite 0x43DC0000 = true := by decide

/-- NoteIsTheNearestOnTheLogScale, NoteIsTheLeastRow: 1.0 and FMAX. -/
theorem witness_notes :
    (plusZeroOrPositive 0x3F800000 ∧ 1 ≤ f32Value 0x3F800000 ∧ f32Value 0x3F800000 ≤ 11025) ∧
    (plusZeroOrPositive 0x462C4400 ∧ 1 ≤ f32Value 0x462C4400 ∧ f32Value 0x462C4400 ≤ 11025) := by
  have h2 : magUnits 0x462C4400 = 11025 * 2 ^ 149 := by decide +kernel
  have h3 : f32Value 0x462C4400 = 11025 := by rw [f32Value_eq_units _ (by decide), h2]; norm_num
  rw [values_at_the_wrap.2.1, h3]
  exact ⟨⟨by decide, by norm_num, by norm_num⟩, by decide, by norm_num, by norm_num⟩

/-- NamesOfNotes: a note of each pitch class, in the lowest octave. -/
theorem witness_NamesOfNotes : (List.range 12).map (fun j => pitchClass ((j : Int) - 36)) = List.range 12 := by decide

/-- AssemblerTextOfEveryOperation: the ends of the decimal values. -/
theorem witness_AssemblerText : 2 ^ 32 - 1 < 2 ^ 32 ∧ 2 ^ 31 ≤ 2 ^ 31 := by decide

/-- NoteIsTheLeastRow: a row below that of 440.0. -/
theorem witness_lower_row : (-36 : Int) ≤ 68 ∧ (68 : Int) < noteOf 0x43DC0000 := by decide +kernel

/-- QuantizedFrequencyIsAFixedPoint: a SETFREQ with QEN set. -/
theorem witness_FixedPoint : reading.qen = true ∧ ∃ t, exec (.setfreq 0x7F800000) reading = .next t := ⟨rfl, _, rfl⟩

/-- ReachedStatesAreLegal: a state after a reset cycle from anywhere, and one a write later. -/
theorem witness_Reached :
    State.Reached { State.reset with inputs := [] } ∧ State.Reached { State.reset with vol := 255 } := by
  have h : State.Reached State.reset :=
    .afterReset (reading1 (pinsOf true true 0x12000000FF)) rfl _ rfl
  exact ⟨h, .afterStep State.reset [pinsOf false false 0x12000000FF] h _ rfl⟩

/-- SilentUntilConfigured: a negative level, and a frequency whose increment is +0, sent to a silent block. -/
theorem witness_Silent :
    let s := reading1 (pinsOf false true 0x12FFFFFFF6)
    let r := { ticking 0 0 .sine 0 with inputs := [pinsOf false true 0x1100000001] }
    (r.vol = 0 ∧ r.out = 0 ∧ r.inc = 0 ∧ r.phase = 0 ∧ r.pins.cfgValid = true) ∧
    (s.pins.cfgValid = true ∧ decodeBus s.pins.busWord = .setvol 0xFFFFFFF6 ∧ (0xFFFFFFF6 : Word).toInt ≤ 0) ∧
    decodeBus r.pins.busWord = .setfreq 1 ∧ nextWith (fun u => u.inc == 0) (exec (.setfreq 1) r) = true := by decide +kernel

end Sys2Proof.Machine.Tests
end

/-! PROOFS. The rounding of R11 over the real numbers: `rn32` is the nearest binary32 value, halves to the even fraction. -/

namespace Sys2Proof.Machine

/-- The distance between a value without sign and a quotient of units, as one integer over the common denominator. -/
theorem abs_f32Value_sub_quotient (x : F32) (hx : signBit x = false) (num den : Nat) (hd : 0 < den) :
    |(f32Value x : ℝ) - (num : ℝ) / den / 2 ^ 149| =
      ((|(magUnits x : ℤ) * den - num| : ℤ) : ℝ) / ((den : ℝ) * 2 ^ 149) := by
  have hsub : (f32Value x : ℝ) - (num : ℝ) / den / 2 ^ 149 = ((magUnits x : ℝ) * den - num) / ((den : ℝ) * 2 ^ 149) := by
    rw [f32Value_eq_units x hx]
    push_cast
    field_simp
  rw [hsub, abs_div, abs_of_pos (show (0 : ℝ) < (den : ℝ) * 2 ^ 149 by positivity)]
  push_cast
  rfl

/-- At or above the largest finite value, that value is nearer to the quotient than any other finite value without sign. -/
theorem largestF32_units_nearest (num den : Nat) (hd : 0 < den) (h : magUnits 0x7F7FFFFF * den ≤ num) (y : F32)
    (hy : signBit y = false) (hyf : isFinite y = true) :
    |(magUnits 0x7F7FFFFF : ℤ) * den - num| ≤ |(magUnits y : ℤ) * den - num| ∧
      (|(magUnits 0x7F7FFFFF : ℤ) * den - num| = |(magUnits y : ℤ) * den - num| → y = 0x7F7FFFFF) := by
  have hmax : signBit 0x7F7FFFFF = false := by decide
  have hle : magUnits y ≤ magUnits 0x7F7FFFFF := by
    rw [magUnits_le_iff hy hmax, show (0x7F7FFFFF : F32).toNat = 0x7F7FFFFF by decide]
    have := (plus_finite_iff y).1 ⟨hy, hyf⟩
    omega
  have hx : (magUnits 0x7F7FFFFF : ℤ) * den ≤ num := by exact_mod_cast h
  have hyx : (magUnits y : ℤ) * den ≤ (magUnits 0x7F7FFFFF : ℤ) * den := by exact_mod_cast Nat.mul_le_mul_right den hle
  rw [abs_of_nonpos (sub_nonpos.2 hx), abs_of_nonpos (sub_nonpos.2 (hyx.trans hx))]
  refine ⟨by linarith, fun heq => magUnits_inj hy hmax ?_⟩
  have hmul : (magUnits y : ℤ) * den = (magUnits 0x7F7FFFFF : ℤ) * den := by linarith
  exact Nat.eq_of_mul_eq_mul_right hd (by exact_mod_cast hmul)

/-- In units and for every quotient: no finite magnitude is nearer than that of `rn32`, and where another is as near the fraction
of `rn32` is even. Up to the largest finite value the binade's grid decides, from there on `rn32` is that value. -/
theorem rn32_units_nearest_finite (num den : Nat) (hd : 0 < den) (y : F32) (hy : signBit y = false) (hyf : isFinite y = true) :
    |(magUnits (rn32 num den) : ℤ) * den - num| ≤ |(magUnits y : ℤ) * den - num| ∧
      (|(magUnits (rn32 num den) : ℤ) * den - num| = |(magUnits y : ℤ) * den - num| →
        y = rn32 num den ∨ fracField (rn32 num den) % 2 = 0) := by
  rcases Nat.le_total num (magUnits 0x7F7FFFFF * den) with hlow | hhigh
  · obtain ⟨-, -, hnear⟩ := rn32_units_nearest num den hd hlow
    exact hnear y hy
  · rw [rn32_above num den hd hhigh]
    obtain ⟨hle, htie⟩ := largestF32_units_nearest num den hd hhigh y hy hyf
    exact ⟨hle, fun heq => .inl (htie heq)⟩

/-- `rn32` is the rounding of R11 of every quotient of units; beyond the largest finite value by log entry 13. -/
theorem isRN32_rn32 (num den : Nat) (hd : 0 < den) : IsRN32 ((num : ℝ) / den / 2 ^ 149) (rn32 num den) := by
  obtain ⟨hsign, hfin⟩ := rn32_plus_finite num den
  refine ⟨hsign, hfin, fun y hy hyf => ?_⟩
  have hscale : (0 : ℝ) < (den : ℝ) * 2 ^ 149 := by positivity
  rw [abs_f32Value_sub_quotient _ hsign num den hd, abs_f32Value_sub_quotient y hy num den hd,
    div_le_div_iff_of_pos_right hscale, div_left_inj' hscale.ne', Int.cast_le, Int.cast_inj]
  exact rn32_units_nearest_finite num den hd y hy hyf

/-- Settles O34: `isRN32_rn32`, which needs no upper end of the quotient. -/
theorem roundingIsNearestEven : Obligations.RoundingIsNearestEven := by
  unfold Obligations.RoundingIsNearestEven
  intro num den hd _
  exact isRN32_rn32 num den hd

end Sys2Proof.Machine

/-! PROOFS. The state from cycle to cycle: what a bus operation and a cycle can do, the invariants of R36 and the legal values of R30
in every reached state, and which operations write which element. -/

namespace Sys2Proof.Machine

/-! ### Bus operations -/

/-- The operations of a bus transaction, as far as the state tells them apart: a read, one of the four configuration writes, or a
write that is ignored (R105). -/
inductive IsBusOperation : Instr → Prop where
  | read (a : Addr) (x : Word) : IsBusOperation (decodeRead a x)
  | setwave (d : Word) : IsBusOperation (.setwave d)
  | setfreq (d : Word) : IsBusOperation (.setfreq d)
  | setvol (d : Word) : IsBusOperation (.setvol d)
  | setquant (d : Word) : IsBusOperation (.setquant d)
  | ignored (i : Instr) (h : ∀ s, exec i s = .next s) : IsBusOperation i

/-- Every bus word decodes to a bus operation (R98, R105). -/
theorem isBusOperation_decodeBus (w : BusWord) : IsBusOperation (decodeBus w) := by
  unfold decodeBus
  split
  · rcases decodeWrite_cases (fieldA w) (fieldD w) with h | h | h | h | hign
    · rw [h]; exact .setwave _
    · rw [h]; exact .setfreq _
    · rw [h]; exact .setvol _
    · rw [h]; exact .setquant _
    · exact .ignored _ fun s => exec_decodeWrite_ignored _ _ s hign
  · exact .read _ _

/-- A read of a reserved address is RDRSV (R105). -/
theorem decodeRead_reserved (a : Addr) (x : Word) (h : 8 ≤ a.toNat) : decodeRead a x = .rdrsv a x := by
  obtain ⟨n, hn⟩ : ∃ n, a.toNat = n + 8 := ⟨a.toNat - 8, by omega⟩
  simp [decodeRead, hn]

/-- A well-formed instruction is a bus operation, or it is TICK. -/
theorem isBusOperation_of_wellFormed (i : Instr) (h : i.wellFormed = true) (ht : i ≠ .tick) : IsBusOperation i := by
  cases i with
  | setwave d => exact .setwave d
  | setfreq d => exact .setfreq d
  | setvol d => exact .setvol d
  | setquant d => exact .setquant d
  | wrign47 a d => exact .ignored _ (exec_wrign47 a d)
  | wrign8F a d => exact .ignored _ (exec_wrign8F a d)
  | rdwave x => exact .read 0 x
  | rdfreq x => exact .read 1 x
  | rdvol x => exact .read 2 x
  | rdquant x => exact .read 3 x
  | rdefreq x => exact .read 4 x
  | rdinc x => exact .read 5 x
  | rdnote x => exact .read 6 x
  | rdout x => exact .read 7 x
  | rdrsv a x =>
    rw [← decodeRead_reserved a x (of_decide_eq_true h)]
    exact .read a x
  | tick => exact absurd rfl ht

/-- A bus operation leaves the elements of TICK, the counter of free values and the coming pins (R33, R35). -/
theorem IsBusOperation.frame {i : Instr} (hi : IsBusOperation i) {s t : State} (h : exec i s = .next t) :
    t.phase = s.phase ∧ t.out = s.out ∧ t.freeCtr = s.freeCtr ∧ t.inputs = s.inputs := by
  cases hi with
  | read a x => rw [exec_decodeRead] at h; cases h; simp
  | setwave d => cases h; simp
  | setfreq d => rw [exec_setfreq] at h; cases h; simp
  | setvol d => cases h; simp
  | setquant d => cases h; simp
  | ignored i hign => rw [hign] at h; cases h; simp

/-- No register that a read can answer holds PHASE (R33). -/
theorem readRegister_with_phase (a : Addr) (s : State) (p : F32) : readRegister a { s with phase := p } = readRegister a s := rfl

/-- SETFREQ does not look at PHASE (R121). -/
theorem setFrequency_with_phase (f : F32) (s : State) (p : F32) :
    setFrequency f { s with phase := p } = { setFrequency f s with phase := p } := by
  unfold setFrequency
  dsimp only
  split <;> rfl

/-- A bus operation does the same to everything else with any other PHASE (R33). -/
theorem IsBusOperation.exec_with_phase {i : Instr} (hi : IsBusOperation i) {s t : State} (h : exec i s = .next t) (p : F32) :
    exec i { s with phase := p } = .next { t with phase := p } := by
  cases hi with
  | read a x =>
    rw [exec_decodeRead] at h ⊢
    cases h
    rw [readRegister_with_phase]; rfl
  | setwave d => cases h; rfl
  | setfreq d =>
    rw [exec_setfreq] at h ⊢
    cases h
    rw [setFrequency_with_phase]
  | setvol d => cases h; rfl
  | setquant d => cases h; rfl
  | ignored i hign =>
    rw [hign] at h ⊢
    cases h; rfl

/-! ### One cycle -/

/-- What the bus does in the coming cycle of `s`, apart from any TICK: the transaction on the pins, or nothing (R93). -/
def State.BusPart (s b : State) : Prop :=
  if s.pins.cfgValid then exec (decodeBus s.pins.busWord) s.beginCycle = .next b else b = s.beginCycle

/-- What the bus does is nothing or a bus operation. -/
theorem State.BusPart.cases {s b : State} (h : s.BusPart b) :
    b = s.beginCycle ∨ ∃ i, IsBusOperation i ∧ exec i s.beginCycle = .next b := by
  unfold State.BusPart at h
  split at h
  · exact .inr ⟨_, isBusOperation_decodeBus _, h⟩
  · exact .inl h

/-- What the bus does leaves the elements of TICK and the counter of free values (R33, R35). -/
theorem State.BusPart.frame {s b : State} (h : s.BusPart b) : b.phase = s.phase ∧ b.out = s.out ∧ b.freeCtr = s.freeCtr := by
  rcases h.cases with rfl | ⟨i, hi, hexec⟩
  · simp
  · obtain ⟨hphase, hout, hctr, -⟩ := hi.frame hexec
    exact ⟨hphase, hout, hctr⟩

/-- Together with nothing on the bus, a TICK is the whole cycle: it changes only the elements that are taken from it. -/
theorem mergeTick_emitSample_self (s : State) : mergeTick s (emitSample s) = emitSample s := rfl

/-- All that a step can do (R93): a reset; or what the bus does, with the elements of TICK taken from the TICK of the same cycle, if
there is one. -/
theorem step_cases {s t : State} (h : step s = .next t) :
    (s.pins.rst = true ∧ t = s.beginCycle.resetCycle) ∨
    (s.pins.rst = false ∧ ∃ b, s.BusPart b ∧ t = if s.pins.tick then mergeTick b (emitSample s.beginCycle) else b) := by
  have hc : cycle s.pins s.beginCycle = .next t := h
  cases hr : s.pins.rst with
  | true =>
    rw [cycle_reset _ _ hr] at hc
    cases hc
    exact .inl ⟨rfl, rfl⟩
  | false =>
    refine .inr ⟨rfl, ?_⟩
    unfold State.BusPart
    cases hv : s.pins.cfgValid <;> cases ht : s.pins.tick
    case false.false =>
      rw [cycle_idle _ _ hr hv ht] at hc
      cases hc
      exact ⟨_, rfl, rfl⟩
    case false.true =>
      rw [cycle_tick _ _ hr hv ht, exec_tick] at hc
      cases hc
      exact ⟨_, rfl, (mergeTick_emitSample_self _).symm⟩
    case true.false =>
      rw [cycle_bus _ _ hr hv ht] at hc
      exact ⟨_, hc, rfl⟩
    case true.true =>
      rw [cycle_both _ _ hr hv ht, exec_tick] at hc
      cases hb : exec (decodeBus s.pins.busWord) s.beginCycle with
      | next b =>
        rw [hb, bothInCycle_next] at hc
        cases hc
        exact ⟨b, rfl, rfl⟩
      | fault r => cases r
      | refused r => rw [hb] at hc; cases hc

/-! ### Frequencies -/

/-- The clamp gives a number without sign, at most FMAX (R122). -/
theorem clampF_legal (f : F32) : plusZeroOrPositive (clampF f) ∧ leMag (clampF f) fMax = true := by
  unfold clampF
  split_ifs with hnan hneg hbig
  · decide +kernel
  · decide +kernel
  · decide +kernel
  · simp only [Bool.or_eq_true, not_or, Bool.not_eq_true, Bool.not_eq_false'] at hneg hbig
    have hle := (magUnits_le_iff hneg.1 (by decide)).1 ((leMag_iff f fMax).1 hbig.2)
    have hmax : fMax.toNat < 0x7F800000 := by decide
    exact ⟨(plus_finite_iff f).2 (hle.trans_lt hmax), hbig.2⟩

/-- The legal values of EFF in R30's table. -/
abbrev EffLegal (e : F32) : Prop := plusZeroOrPositive e ∧ leMag e 0x462E9D37 = true

/-- A clamped frequency is a legal value of EFF. -/
theorem effLegal_of_clamped {f : F32} (hf : plusZeroOrPositive f) (hle : leMag f fMax = true) : EffLegal f := by
  have hmax : leMag fMax 0x462E9D37 = true := by decide +kernel
  rw [leMag_iff] at hle hmax
  exact ⟨hf, (leMag_iff _ _).2 (hle.trans hmax)⟩

/-- A clamped frequency has its note in the ROM (R174). -/
theorem noteOf_range {f : F32} (hf : plusZeroOrPositive f) (hle : leMag f fMax = true) : -36 ≤ noteOf f ∧ noteOf f ≤ 125 := by
  have hpat := (magUnits_le_iff hf.1 (by decide)).1 ((leMag_iff f fMax).1 hle)
  obtain ⟨j, hj, hnote, -, -⟩ := noteOf_spec f hf.1 (hpat.trans rom_last)
  omega

/-- No frequency of the ROM lies above its last, 0x462E9D37 (R67). -/
theorem romF_le_last : ∀ j < 162, (romF j).toNat ≤ (0x462E9D37 : F32).toNat := by decide +kernel

/-- The frequency of a note of the ROM is a legal value of EFF. -/
theorem effLegal_noteFrequency {n : Int} (hn : -36 ≤ n ∧ n ≤ 125) : EffLegal (noteFrequency n) := by
  have hrow : (n + 36).toNat < 162 := by omega
  have hnum := (plus_finite_iff _).2 (rom_finite _ hrow).1
  rw [noteFrequency_eq]
  exact ⟨hnum, (leMag_iff _ _).2 ((magUnits_le_iff hnum.1 (by decide)).2 (romF_le_last _ hrow))⟩

/-- A note number of the ROM is what the sign extension of its byte gives back (R103). -/
theorem toInt_noteBits {n : Int} (hn : -36 ≤ n ∧ n ≤ 125) : (noteBits n).toInt = n := by
  rw [noteBits, BitVec.toInt_ofInt]
  exact Int.bmod_eq_of_le (by omega) (by omega)

/-- The increment of a legal EFF is a legal value of INC: the largest EFF has the increment 0x4301BEBA (R123). -/
theorem incr_legal {e : F32} (he : EffLegal e) : plusZeroOrPositive (incr e) ∧ leMag (incr e) 0x4301BEBA = true := by
  have hlast : incr 0x462E9D37 = 0x4301BEBA := by decide +kernel
  have hbig : magUnits 0x462E9D37 * Config.tableSize ≤ magUnits 0x7F7FFFFF * Config.sampleRate := by decide +kernel
  refine ⟨rn32_plus_finite _ _, ?_⟩
  rw [leMag_iff, ← hlast]
  exact rn32_mono (by decide) (Nat.mul_le_mul_right _ ((leMag_iff _ _).1 he.2)) hbig

/-- The largest INC is below 130. -/
theorem magUnits_lt_of_incLegal {x : F32} (h : leMag x 0x4301BEBA = true) : magUnits x < 130 * unitsPerOne := by
  have hmax : magUnits 0x4301BEBA < 130 * unitsPerOne := by decide +kernel
  exact ((leMag_iff _ _).1 h).trans_lt hmax

/-! ### The phase -/

/-- Numbers without sign, below 256: the legal values of PHASE in R30's table, and a bound of INC. -/
abbrev BelowTable (p : F32) : Prop := plusZeroOrPositive p ∧ magUnits p < 256 * unitsPerOne

/-- A number without sign is in the premise of R151. -/
theorem nonNegFinite_of_plus {x : F32} (hx : plusZeroOrPositive x) : nonNegFinite x = true := by
  simp [nonNegFinite, hx.1, hx.2]

/-- The largest number below 256. -/
theorem magUnits_le_of_belowTable {p : F32} (hp : BelowTable p) : magUnits p ≤ magUnits 0x437FFFFF := by
  have h256 : magUnits 0x43800000 = 256 * unitsPerOne := by decide +kernel
  have hnext : (0x43800000 : F32).toNat = (0x437FFFFF : F32).toNat + 1 := by decide
  have hlt := hp.2
  rw [← h256, magUnits_lt_iff hp.1.1 (by decide), hnext, Nat.lt_add_one_iff] at hlt
  exact (magUnits_le_iff hp.1.1 (by decide)).2 hlt

/-- The sum of two numbers below 256 is rounded as R11 states it, and stays below 512 (R151, R152). -/
theorem phaseSum_of_belowTable {phase inc : F32} (hp : BelowTable phase) (hi : BelowTable inc) :
    phaseSum phase inc = some (rn32 (magUnits phase + magUnits inc) 1) ∧
    magUnits (rn32 (magUnits phase + magUnits inc) 1) < 512 * unitsPerOne := by
  have hdouble : 2 * magUnits 0x437FFFFF = magUnits 0x43FFFFFF := by decide +kernel
  have hbelow : magUnits 0x43FFFFFF < 512 * unitsPerOne := by decide +kernel
  have hle : magUnits phase + magUnits inc ≤ magUnits 0x43FFFFFF := by
    have hp' := magUnits_le_of_belowTable hp
    have hi' := magUnits_le_of_belowTable hi
    omega
  constructor
  · have hstated : 512 * unitsPerOne ≤ 2 ^ 128 * unitsPerOne * 1 := by decide +kernel
    simp only [phaseSum, nonNegFinite_of_plus hp.1, nonNegFinite_of_plus hi.1, Bool.and_self, if_true]
    exact statedRn32_of_lt ((hle.trans_lt hbelow).trans_le hstated)
  · have hmono := rn32_mono one_pos hle (by decide +kernel)
    rw [rn32_exact 0x43FFFFFF (by decide) (by decide)] at hmono
    exact hmono.trans_lt hbelow

/-- A magnitude of at most 24 bits, counted in units of a power of two, is that of a pattern. -/
theorem exists_patUnits_eq (c k : Nat) (hc : c < 2 ^ 24) : ∃ n < (k + 2) * 2 ^ 23, patUnits n = c * 2 ^ k := by
  induction k generalizing c with
  | zero => exact ⟨c, by omega, by simpa using patUnits_scaled 0 c (.inl rfl) hc.le⟩
  | succ k ih =>
    by_cases hlow : c < 2 ^ 23
    · obtain ⟨n, hn, hunits⟩ := ih (2 * c) (by omega)
      exact ⟨n, hn.trans_le (Nat.mul_le_mul_right _ (Nat.le_succ _)), by rw [hunits]; ring⟩
    · exact ⟨(k + 1) * 2 ^ 23 + c, by omega, patUnits_scaled (k + 1) c (.inr (by omega)) hc.le⟩

/-- A magnitude of at most 24 bits in units of a power of two has an exact binary32 value. -/
theorem exactF32_of_dvd {u k : Nat} (hdvd : 2 ^ k ∣ u) (hlt : u < 2 ^ (k + 24)) (hk : k ≤ 252) :
    ∃ p, exactF32 u = some p ∧ plusZeroOrPositive p ∧ magUnits p = u := by
  obtain ⟨c, rfl⟩ := hdvd
  have hc : c < 2 ^ 24 := by
    rw [pow_add] at hlt
    exact Nat.lt_of_mul_lt_mul_left hlt
  obtain ⟨n, hn, hunits⟩ := exists_patUnits_eq c k hc
  have hfin : n < 0x7F800000 := by omega
  have hnat : (BitVec.ofNat 32 n).toNat = n := by simp; omega
  have hplus := (plus_finite_iff (BitVec.ofNat 32 n)).2 (hnat.symm ▸ hfin)
  have hmag : magUnits (BitVec.ofNat 32 n) = 2 ^ k * c := by
    rw [magUnits_ofNat (by omega), hunits, mul_comm]
  refine ⟨_, ?_, hplus, hmag⟩
  have hround := rn32_exact _ hplus.1 hplus.2
  rw [hmag] at hround
  simp [exactF32, hround, hmag]

/-- The wrap of a sum below 512: 256 comes off exactly where the sum has reached it, and the phase is below 256 (R152). Last places of
a number from 256 on are whole units of 2^-15. -/
theorem phaseWrap_of_lt {x : F32} (hx : plusZeroOrPositive x) (hlt : magUnits x < 512 * unitsPerOne) :
    ∃ p, phaseWrap x = some p ∧ BelowTable p ∧
      magUnits p = if magUnits x < 256 * unitsPerOne then magUnits x else magUnits x - 256 * unitsPerOne := by
  have htable : tableUnits = 2 ^ 157 := by decide +kernel
  have h256 : 256 * unitsPerOne = 2 ^ 157 := by decide +kernel
  have h512 : 512 * unitsPerOne = 2 ^ 158 := by decide +kernel
  simp only [phaseWrap, BelowTable, htable, h256]
  rw [h512] at hlt
  by_cases hwrap : magUnits x < 2 ^ 157
  · exact ⟨x, if_pos hwrap, ⟨hx, hwrap⟩, (if_pos hwrap).symm⟩
  · have hgrid : 2 ^ 134 ∣ magUnits x := (magUnits_grid x hx.1 134).resolve_right hwrap
    have hdvd : 2 ^ 134 ∣ magUnits x - 2 ^ 157 := Nat.dvd_sub hgrid (pow_dvd_pow 2 (by norm_num))
    have hsmall : magUnits x - 2 ^ 157 < 2 ^ 157 := by omega
    obtain ⟨p, hexact, hplus, hmag⟩ := exactF32_of_dvd hdvd (by omega) (by norm_num)
    rw [if_neg hwrap, if_neg hwrap]
    exact ⟨p, hexact, ⟨hplus, hmag.trans_lt hsmall⟩, hmag⟩

/-- From numbers below 256 a TICK has a stated phase, again below 256 (R151, R152). -/
theorem nextPhase_of_belowTable {phase inc : F32} (hp : BelowTable phase) (hi : BelowTable inc) :
    ∃ p, nextPhase phase inc = some p ∧ BelowTable p := by
  obtain ⟨hsum, hlt⟩ := phaseSum_of_belowTable hp hi
  obtain ⟨p, hwrap, hbelow, -⟩ := phaseWrap_of_lt (rn32_plus_finite _ _) hlt
  exact ⟨p, by rw [nextPhase, hsum, Option.bind_some, hwrap], hbelow⟩

/-- A phase below 256 has a sample in the table, at its floor (R153, R154). -/
theorem lookup_of_belowTable (sel : Waveform) {p : F32} (hp : BelowTable p) :
    lookup sel p = some (waveRom sel (BitVec.ofNat 8 (floorF32 p))) := by
  have hfloor : floorF32 p < Config.tableSize := (Nat.div_lt_iff_lt_mul (by decide)).2 hp.2
  simp [lookup, tableIndex, nonNegFinite_of_plus hp.1, hfloor]

/-- The output of a TICK is at most 254 (R155). -/
theorem scale_le (s v : Byte) : (scale s v).toNat ≤ 254 := by
  have hprod : s.toNat * v.toNat ≤ 255 * 255 := Nat.mul_le_mul (by omega) (by omega)
  rw [scale_toNat]
  omega

/-! ### The invariants of R36 -/

/-- In a state of the invariants, INC is in the premise of R152. -/
theorem State.Inv.inc_belowTable {s : State} (hs : s.Inv) : BelowTable s.inc :=
  ⟨hs.increment_number, hs.increment_below.trans (by decide +kernel)⟩

/-- In a state of the invariants a TICK leaves a stated phase below 256. -/
theorem State.Inv.nextPhase_stated {s : State} (hs : s.Inv) : ∃ p, nextPhase s.phase s.inc = some p ∧ BelowTable p :=
  nextPhase_of_belowTable ⟨hs.phase_number, hs.phase_below_table⟩ hs.inc_belowTable

/-- In a state of the invariants a TICK uses no free value. -/
theorem State.Inv.emitSample_freeCtr_eq {s : State} (hs : s.Inv) : (emitSample s).freeCtr = s.freeCtr := by
  obtain ⟨p, hnext, hp⟩ := hs.nextPhase_stated
  simp [hnext, lookup_of_belowTable s.sel hp]

/-- The reset state meets the invariants (R220). -/
theorem reset_inv : State.reset.Inv where
  volume := by decide
  phase_number := by decide
  phase_below_table := by decide +kernel
  increment := by decide +kernel
  target_number := by decide
  target_clamped := by decide +kernel
  unquantized := by decide
  quantized := by decide
  increment_number := by decide
  increment_below := by decide +kernel
  output := by decide

/-- So does the state after a reset cycle, which keeps only the model's own fields. -/
theorem resetCycle_inv (s : State) : s.resetCycle.Inv := { reset_inv with }

/-- The invariants are about the elements of R30, which the start of a cycle leaves. -/
theorem beginCycle_inv {s : State} (hs : s.Inv) : s.beginCycle.Inv := { hs with }

/-- No invariant is about the coming pins. -/
theorem State.Inv.with_inputs {s : State} (hs : s.Inv) (pins : List Pins) : State.Inv { s with inputs := pins } := { hs with }

/-- SETFREQ quantizes no frequency below 1 Hz (R170). -/
theorem leMag_of_quantizes {qen : Bool} {f : F32} (h : quantizes qen f = true) : leMag oneHz f = true := by
  simp only [quantizes, Bool.and_eq_true] at h
  exact h.2

/-- SETFREQ keeps the invariants (R121). -/
theorem setFrequency_inv {s : State} (hs : s.Inv) (f : F32) : (setFrequency f s).Inv := by
  obtain ⟨hnum, hle⟩ := clampF_legal f
  have hnote := noteOf_range hnum hle
  have heff : EffLegal (setFrequency f s).eff := by
    rw [setFrequency_eff]
    split
    · exact effLegal_noteFrequency hnote
    · exact effLegal_of_clamped hnum hle
  have hinc := incr_legal heff
  rw [← setFrequency_inc] at hinc
  exact {
    volume := by simpa using hs.volume
    phase_number := by simpa using hs.phase_number
    phase_below_table := by simpa using hs.phase_below_table
    increment := setFrequency_inc f s
    target_number := by simpa using hnum
    target_clamped := by simpa using hle
    unquantized := by simp +contextual
    quantized := by
      intro hq
      rw [setFrequency_nv] at hq
      simp [hq, leMag_of_quantizes hq, toInt_noteBits hnote]
    increment_number := hinc.1
    increment_below := magUnits_lt_of_incLegal hinc.2
    output := by simpa using hs.output }

/-- Every bus operation keeps the invariants. -/
theorem IsBusOperation.inv {i : Instr} (hi : IsBusOperation i) {s t : State} (hs : s.Inv) (h : exec i s = .next t) : t.Inv := by
  cases hi with
  | read a x => rw [exec_decodeRead] at h; cases h; exact { hs with }
  | setwave d => cases h; exact { hs with }
  | setfreq d => rw [exec_setfreq] at h; cases h; exact setFrequency_inv hs d
  | setvol d => cases h; exact { hs with volume := Nat.le_of_lt_succ (BitVec.isLt _) }
  | setquant d => cases h; exact { hs with }
  | ignored i hign => rw [hign] at h; cases h; exact hs

/-- TICK keeps the invariants (R151 to R155). -/
theorem emitSample_inv {s : State} (hs : s.Inv) : (emitSample s).Inv := by
  obtain ⟨p, hnext, hnum, hbelow⟩ := hs.nextPhase_stated
  have hphase : (emitSample s).phase = p := by simp [hnext]
  exact { hs with
    phase_number := hphase ▸ hnum
    phase_below_table := hphase ▸ hbelow
    output := scale_le _ _ }

/-- No invariant joins an element of the bus with one of TICK, so a cycle with both keeps them when each does. -/
theorem mergeTick_inv {b k : State} (hb : b.Inv) (hk : k.Inv) : (mergeTick b k).Inv :=
  { hb with
    phase_number := hk.phase_number
    phase_below_table := hk.phase_below_table
    output := hk.output }

/-- Whatever the bus does in a cycle keeps the invariants. -/
theorem State.BusPart.inv {s b : State} (h : s.BusPart b) (hs : s.Inv) : b.Inv := by
  rcases h.cases with rfl | ⟨i, hi, hexec⟩
  · exact beginCycle_inv hs
  · exact hi.inv (beginCycle_inv hs) hexec

/-- Every clock cycle keeps the invariants: a reset cycle establishes them, and otherwise the bus and the TICK each keep their part. -/
theorem step_inv {s t : State} (hs : s.Inv) (h : step s = .next t) : t.Inv := by
  rcases step_cases h with ⟨-, rfl⟩ | ⟨-, b, hb, rfl⟩
  · exact resetCycle_inv _
  · split
    · exact mergeTick_inv (hb.inv hs) (emitSample_inv (beginCycle_inv hs))
    · exact hb.inv hs

/-- Settles O42: `step_inv`. -/
theorem everyCycleKeepsTheInvariants : Obligations.EveryCycleKeepsTheInvariants := by
  unfold Obligations.EveryCycleKeepsTheInvariants
  intro s t hs h
  exact step_inv hs h

/-! ### Who writes and reads what -/

/-- Settles O25, by the kind of operation. -/
theorem onlyTheNamedOperationsWrite : Obligations.OnlyTheNamedOperationsWrite := by
  unfold Obligations.OnlyTheNamedOperationsWrite
  intro i s t hwf h
  by_cases ht : i = .tick
  · subst ht; cases h; simp
  · cases isBusOperation_of_wellFormed i hwf ht with
    | read a x => rw [exec_decodeRead] at h; cases h; simp
    | setwave d => cases h; simp
    | setfreq d => rw [exec_setfreq] at h; cases h; simp
    | setvol d => cases h; simp
    | setquant d => cases h; simp
    | ignored i hign => rw [hign] at h; cases h; simp

/-- Settles O26: a bus operation neither writes PHASE nor looks at it, and a cycle without TICK and reset is what the bus does. -/
theorem phaseIsOutOfReachOfTheBus : Obligations.PhaseIsOutOfReachOfTheBus := by
  unfold Obligations.PhaseIsOutOfReachOfTheBus
  refine ⟨fun w s t p h => ?_, fun s t h hrst htick => ?_⟩
  · have hbus := isBusOperation_decodeBus w
    exact ⟨(hbus.frame h).1, hbus.exec_with_phase h p⟩
  · rcases step_cases h with ⟨hrst', -⟩ | ⟨-, b, hb, rfl⟩
    · rw [hrst] at hrst'; cases hrst'
    · obtain ⟨hphase, -, -⟩ := hb.frame
      simpa [htick] using hphase

/-! ### Reached states -/

/-- The invariants of R36 hold in every reached state: a reset cycle establishes them and every cycle keeps them. -/
theorem State.Reached.inv {s : State} (h : s.Reached) : s.Inv := by
  induction h with
  | afterReset s hrst t ht =>
    rcases step_cases ht with ⟨-, rfl⟩ | ⟨hrst', -⟩
    · exact resetCycle_inv _
    · rw [hrst] at hrst'; cases hrst'
  | afterStep s pins _ t ht ih => exact step_inv (ih.with_inputs pins) ht

/-- A quantized state holds the note of its target, a note of the ROM (R174). -/
theorem State.Inv.note_range {s : State} (hs : s.Inv) (hnv : s.nv = true) : -36 ≤ s.note.toInt ∧ s.note.toInt ≤ 125 := by
  have hrange := noteOf_range hs.target_number hs.target_clamped
  obtain ⟨-, hnote, -⟩ := hs.quantized hnv
  rwa [hnote, toInt_noteBits hrange]

/-- EFF is the clamped target or the frequency of a note of the ROM, so it has a legal value. -/
theorem State.Inv.effLegal {s : State} (hs : s.Inv) : EffLegal s.eff := by
  cases hnv : s.nv with
  | true =>
    obtain ⟨-, -, heff⟩ := hs.quantized hnv
    rw [heff]
    exact effLegal_noteFrequency (hs.note_range hnv)
  | false =>
    obtain ⟨heff, -⟩ := hs.unquantized hnv
    rw [heff]
    exact effLegal_of_clamped hs.target_number hs.target_clamped

/-- The invariants of R36 leave R30's legal values only. -/
theorem State.Inv.legal {s : State} (hs : s.Inv) : s.Legal where
  target := ⟨hs.target_number, hs.target_clamped⟩
  effective := hs.effLegal
  increment := hs.increment ▸ incr_legal hs.effLegal
  note_quantized := hs.note_range
  note_unquantized hnv := (hs.unquantized hnv).2
  phase := ⟨hs.phase_number, hs.phase_below_table⟩
  output := hs.output

/-- From a state of the invariants no cycle uses a free value. -/
theorem State.Inv.step_freeCtr {s t : State} (hs : s.Inv) (h : step s = .next t) : t.freeCtr = s.freeCtr := by
  rcases step_cases h with ⟨-, rfl⟩ | ⟨-, b, hb, rfl⟩
  · rfl
  · split
    · exact (beginCycle_inv hs).emitSample_freeCtr_eq
    · obtain ⟨-, -, hctr⟩ := hb.frame
      exact hctr

/-- Settles O43: reached states meet the invariants, and the other two clauses follow from these. -/
theorem reachedStatesAreLegal : Obligations.ReachedStatesAreLegal := by
  unfold Obligations.ReachedStatesAreLegal
  intro s h
  exact ⟨h.inv, h.inv.legal, fun pins t ht => (h.inv.with_inputs pins).step_freeCtr ht⟩

end Sys2Proof.Machine

/-! PROOFS. Reads and writes over the bus (R72), and the waveform tables (R63 to R66) and the thresholds of the quantizer ROM (R67)
against their formulas over the real numbers. -/

namespace Sys2Proof.Machine

/-! ### Reads and writes of the bus -/

/-- SETFREQ looks at QEN only, which it keeps, so the second of two equal ones changes nothing (R72, R121). -/
theorem setFrequency_setFrequency (f : F32) (s : State) : setFrequency f (setFrequency f s) = setFrequency f s := by
  cases hq : quantizes s.qen (clampF f) <;> simp [setFrequency, hq]

/-- A bus operation never stops (R200). -/
theorem IsBusOperation.completes {i : Instr} (hi : IsBusOperation i) (s : State) : ∃ t, exec i s = .next t := by
  cases hi with
  | read a x => exact ⟨_, exec_decodeRead a x s⟩
  | setwave d => exact ⟨_, exec_setwave d s⟩
  | setfreq d => exact ⟨_, exec_setfreq d s⟩
  | setvol d => exact ⟨_, exec_setvol d s⟩
  | setquant d => exact ⟨_, exec_setquant d s⟩
  | ignored i hign => exact ⟨_, hign s⟩

/-- A bus operation done again on the state it answered changes nothing (R72). -/
theorem IsBusOperation.exec_again {i : Instr} (hi : IsBusOperation i) {s t : State} (h : exec i s = .next t) :
    exec i t = .next t := by
  cases hi with
  | read a x => rw [exec_decodeRead] at h ⊢; cases h; rfl
  | setwave d => cases h; rfl
  | setfreq d => rw [exec_setfreq] at h ⊢; cases h; rw [setFrequency_setFrequency]
  | setvol d => cases h; rfl
  | setquant d => cases h; rfl
  | ignored i hign => rw [hign] at h; cases h; exact hign s

/-- Settles O24: reads by `exec_decodeRead`, ignored writes by `exec_decodeWrite_ignored`, and every bus operation is idempotent. -/
theorem readsAreSilentAndWritesIdempotent : Obligations.ReadsAreSilentAndWritesIdempotent := by
  unfold Obligations.ReadsAreSilentAndWritesIdempotent
  intro w s
  have hbus := isBusOperation_decodeBus w
  obtain ⟨t, ht⟩ := hbus.completes s
  refine ⟨t, ht, fun hread => ?_, fun hwrite hign => ?_, fun _ => hbus.exec_again ht⟩
  · rw [decodeBus, hread, if_neg Bool.false_ne_true, exec_decodeRead] at ht
    cases ht; rfl
  · rw [decodeBus, hwrite, if_pos rfl, exec_decodeWrite_ignored _ _ _ hign] at ht
    cases ht; rfl

/-! ### The square, sawtooth and triangle tables -/

/-- The square table as numbers (R64). -/
theorem waveRom_square_toNat (i : Byte) : (waveRom .square i).toNat = if i.toNat ≤ 127 then 255 else 0 := by
  simp only [waveRom, squareEntry]
  split <;> rfl

/-- The sawtooth table as numbers (R65). -/
theorem waveRom_sawtooth_toNat (i : Byte) : (waveRom .sawtooth i).toNat = i.toNat := by
  simp [waveRom, sawtoothEntry]

/-- The triangle table as numbers (R66). -/
theorem waveRom_triangle_toNat (i : Byte) :
    (waveRom .triangle i).toNat = if i.toNat ≤ 127 then 2 * i.toNat else 2 * (255 - i.toNat) := by
  simp only [waveRom, triangleEntry]
  split <;> rw [BitVec.toNat_ofNat] <;> omega

/-- The triangle table is symmetric (R66). -/
theorem waveRom_triangle_symm (i : Byte) : waveRom .triangle i = waveRom .triangle (255 - i) := by
  have hmirror : (255 - i).toNat = 255 - i.toNat := by bv_omega
  apply BitVec.eq_of_toNat_eq
  rw [waveRom_triangle_toNat, waveRom_triangle_toNat, hmirror]
  split_ifs <;> omega

/-- Settles O31, table by table. -/
theorem waveformShapes : Obligations.WaveformShapes := by
  unfold Obligations.WaveformShapes
  refine ⟨waveRom_square_toNat, waveRom_sawtooth_toNat, waveRom_triangle_toNat, waveRom_triangle_symm, fun i => ?_, by decide,
    by decide⟩
  rw [waveRom_triangle_toNat]
  split <;> omega

/-! ### The sine table

`exp(2 pi i / 256)` is replaced by a Gaussian integer over `2^30`, whose powers are exact: the error of the `n`-th power is at most
`n / 2^23`, less than the distance of the formula from the next whole number wherever the sine is not 0. -/

/-- The cosine and the sine of `2 pi / 256` in units of `2^-30`, rounded towards zero. -/
def sineStep : GaussianInt := ⟨1073418433, 26350943⟩

/-- The same as a complex number. -/
noncomputable def sineStepC : ℂ := (sineStep : ℂ) / 2 ^ 30

/-- The real part of the step. -/
theorem sineStepC_re : sineStepC.re = 1073418433 / 2 ^ 30 := by
  rw [sineStepC, sineStep, GaussianInt.toComplex_def₂]
  norm_num [Complex.div_re, Complex.normSq_apply]

/-- The imaginary part of the step. -/
theorem sineStepC_im : sineStepC.im = 26350943 / 2 ^ 30 := by
  rw [sineStepC, sineStep, GaussianInt.toComplex_def₂]
  norm_num [Complex.div_im, Complex.normSq_apply]

/-- The step is nearly on the unit circle, and not outside. -/
theorem norm_sineStepC_le_one : ‖sineStepC‖ ≤ 1 := by
  have hsq : ‖sineStepC‖ ^ 2 ≤ 1 := by
    rw [← Complex.normSq_eq_norm_sq, Complex.normSq_apply, sineStepC_re, sineStepC_im]
    norm_num
  exact (sq_le_one_iff₀ (norm_nonneg _)).1 hsq

/-- Powers in the unit disc drift apart no faster than linearly. -/
theorem norm_pow_sub_pow_le_mul {z w : ℂ} (hz : ‖z‖ ≤ 1) (hw : ‖w‖ ≤ 1) (n : ℕ) : ‖z ^ n - w ^ n‖ ≤ n * ‖z - w‖ := by
  induction n with
  | zero => simp
  | succ n ih =>
    calc ‖z ^ (n + 1) - w ^ (n + 1)‖ = ‖z ^ n * (z - w) + (z ^ n - w ^ n) * w‖ := by ring_nf
      _ ≤ ‖z ^ n‖ * ‖z - w‖ + ‖z ^ n - w ^ n‖ * ‖w‖ := by
        rw [← norm_mul, ← norm_mul]; exact norm_add_le _ _
      _ ≤ 1 * ‖z - w‖ + (n * ‖z - w‖) * 1 := by
        gcongr
        rw [norm_pow]; exact pow_le_one₀ (norm_nonneg _) hz
      _ = ((n + 1 : ℕ) : ℝ) * ‖z - w‖ := by push_cast; ring

/-- The point of the circle at `2 pi / 256`. -/
noncomputable def sineTurn : ℂ := Complex.exp ((2 * Real.pi / 256 : ℝ) * Complex.I)

/-- The step is that point up to `2^-23`. -/
theorem sineTurn_near : ‖sineTurn - sineStepC‖ ≤ 1 / 2 ^ 23 := by
  set x : ℝ := 2 * Real.pi / 256 with hx
  have hlo : 3.141592 / 128 ≤ x := by linarith [Real.pi_gt_d6]
  have hhi : x ≤ 3.141593 / 128 := by linarith [Real.pi_lt_d6]
  have hpos : 0 ≤ x := by linarith
  have hone : |x| ≤ 1 := by rw [abs_of_nonneg hpos]; linarith
  have hpow (k : ℕ) : (3.141592 / 128) ^ k ≤ x ^ k ∧ x ^ k ≤ (3.141593 / 128) ^ k :=
    ⟨pow_le_pow_left₀ (by norm_num) hlo k, pow_le_pow_left₀ hpos hhi k⟩
  obtain ⟨hlo2, hhi2⟩ := hpow 2
  obtain ⟨hlo3, hhi3⟩ := hpow 3
  obtain ⟨-, hhi4⟩ := hpow 4
  obtain ⟨-, hhi5⟩ := hpow 5
  have hcos : |Real.cos x - sineStepC.re| ≤ 1 / 2 ^ 24 := by
    have hbound := abs_le.1 (Real.cos_bound hone)
    rw [abs_of_nonneg hpos] at hbound
    rw [sineStepC_re, abs_le]
    constructor <;> linarith
  have hsin : |Real.sin x - sineStepC.im| ≤ 1 / 2 ^ 24 := by
    have hbound := abs_le.1 (Real.sin_bound hone)
    rw [abs_of_nonneg hpos] at hbound
    rw [sineStepC_im, abs_le]
    constructor <;> linarith
  calc ‖sineTurn - sineStepC‖ ≤ |(sineTurn - sineStepC).re| + |(sineTurn - sineStepC).im| := Complex.norm_le_abs_re_add_abs_im _
    _ = |Real.cos x - sineStepC.re| + |Real.sin x - sineStepC.im| := by
      rw [Complex.sub_re, Complex.sub_im, sineTurn, Complex.exp_ofReal_mul_I_re, Complex.exp_ofReal_mul_I_im]
    _ ≤ 1 / 2 ^ 24 + 1 / 2 ^ 24 := add_le_add hcos hsin
    _ = 1 / 2 ^ 23 := by norm_num

/-- The sines of the table are the imaginary parts of the powers of that point. -/
theorem sin_eq_sineTurn_pow (n : ℕ) : Real.sin (2 * Real.pi * n / 256) = (sineTurn ^ n).im := by
  have hangle : (n : ℂ) * ((2 * Real.pi / 256 : ℝ) * Complex.I) = (2 * Real.pi * n / 256 : ℝ) * Complex.I := by push_cast; ring
  rw [sineTurn, ← Complex.exp_nat_mul, hangle, Complex.exp_ofReal_mul_I_im]

/-- The powers of the step over their common denominator. -/
theorem sineStepC_pow_im (n : ℕ) : (sineStepC ^ n).im = ((sineStep ^ n).im : ℝ) / 2 ^ (30 * n) := by
  rw [sineStepC, div_pow, ← map_pow, ← pow_mul, GaussianInt.intCast_im]
  norm_cast
  rw [Complex.div_natCast_im]

/-- The sine is the imaginary part of the power of the step, up to the drift; both in units of `2^-(23 + 30 n)`. -/
theorem sin_near_sineStep_pow (n : ℕ) :
    |Real.sin (2 * Real.pi * n / 256) * 2 ^ (23 + 30 * n) - 2 ^ 23 * (sineStep ^ n).im| ≤ (n : ℝ) * 2 ^ (30 * n) := by
  have hnear : |Real.sin (2 * Real.pi * n / 256) - ((sineStep ^ n).im : ℝ) / 2 ^ (30 * n)| ≤ n * (1 / 2 ^ 23) := by
    rw [sin_eq_sineTurn_pow, ← sineStepC_pow_im, ← Complex.sub_im]
    calc |(sineTurn ^ n - sineStepC ^ n).im| ≤ ‖sineTurn ^ n - sineStepC ^ n‖ := Complex.abs_im_le_norm _
      _ ≤ n * ‖sineTurn - sineStepC‖ :=
        norm_pow_sub_pow_le_mul (Complex.norm_exp_ofReal_mul_I _).le norm_sineStepC_le_one n
      _ ≤ n * (1 / 2 ^ 23) := by gcongr; exact sineTurn_near
  have hscale : (0 : ℝ) < 2 ^ (23 + 30 * n) := by positivity
  calc _ = |Real.sin (2 * Real.pi * n / 256) - ((sineStep ^ n).im : ℝ) / 2 ^ (30 * n)| * 2 ^ (23 + 30 * n) := by
        rw [← abs_of_pos hscale, ← abs_mul, abs_of_pos hscale]
        congr 1
        rw [pow_add]
        field_simp
    _ ≤ n * (1 / 2 ^ 23) * 2 ^ (23 + 30 * n) := by gcongr
    _ = n * 2 ^ (30 * n) := by rw [pow_add]; ring

/-- Where the sine is not 0, the whole band around the power of the step belongs to the entry of the table: the formula, doubled, is
`255 sin + 256`. -/
theorem sineTable_of_power : ∀ n < 256, n % 128 ≠ 0 →
    (2 * ((waveRom .sine (BitVec.ofNat 8 n)).toNat : ℤ) - 256) * 2 ^ (23 + 30 * n) ≤
      255 * (2 ^ 23 * (sineStep ^ n).im - n * 2 ^ (30 * n)) ∧
    255 * (2 ^ 23 * (sineStep ^ n).im + n * 2 ^ (30 * n)) <
      (2 * ((waveRom .sine (BitVec.ofNat 8 n)).toNat : ℤ) - 254) * 2 ^ (23 + 30 * n) := by
  decide +kernel

/-- The entry of the sine table where the sine is not 0. -/
theorem sineTable_entry (n : ℕ) (hn : n < 256) (h0 : n % 128 ≠ 0) :
    ((waveRom .sine (BitVec.ofNat 8 n)).toNat : ℤ) = ⌊(Real.sin (2 * Real.pi * n / 256) + 1) * 127.5 + 1 / 2⌋ := by
  obtain ⟨hlo, hhi⟩ := sineTable_of_power n hn h0
  obtain ⟨hnear_lo, hnear_hi⟩ := abs_le.1 (sin_near_sineStep_pow n)
  generalize (waveRom .sine (BitVec.ofNat 8 n)).toNat = e at *
  have hscale : (0 : ℝ) < 2 ^ (23 + 30 * n) := by positivity
  have hlo' := (Int.cast_le (R := ℝ)).2 hlo
  have hhi' := (Int.cast_lt (R := ℝ)).2 hhi
  push_cast at hlo' hhi'
  have hlower : 2 * (e : ℝ) - 256 ≤ 255 * Real.sin (2 * Real.pi * n / 256) :=
    le_of_mul_le_mul_right (by linarith) hscale
  have hupper : 255 * Real.sin (2 * Real.pi * n / 256) < 2 * (e : ℝ) - 254 :=
    lt_of_mul_lt_mul_right (by linarith) hscale.le
  rw [eq_comm, Int.floor_eq_iff]
  push_cast
  constructor <;> linarith

/-- At both ends of the half period the sine is 0 and the formula is exactly 128. -/
theorem sineTable_entry_zero (n : ℕ) (hn : n = 0 ∨ n = 128) :
    ((waveRom .sine (BitVec.ofNat 8 n)).toNat : ℤ) = ⌊(Real.sin (2 * Real.pi * n / 256) + 1) * 127.5 + 1 / 2⌋ := by
  have hsin : Real.sin (2 * Real.pi * n / 256) = 0 := by
    rcases hn with rfl | rfl
    · simp
    · rw [show 2 * Real.pi * (128 : ℕ) / 256 = Real.pi by push_cast; ring, Real.sin_pi]
  have hentry : (waveRom .sine (BitVec.ofNat 8 n)).toNat = 128 := by
    rcases hn with rfl | rfl <;> rfl
  rw [hsin, hentry, eq_comm, Int.floor_eq_iff]
  norm_num

/-- Settles O32: `sineTable_entry`, and the two entries where the sine is 0. -/
theorem sineTableMatchesItsFormula : Obligations.SineTableMatchesItsFormula := by
  unfold Obligations.SineTableMatchesItsFormula
  intro i
  have hi : i.toNat < 256 := i.isLt
  by_cases h0 : i.toNat % 128 = 0
  · simpa using sineTable_entry_zero i.toNat (by omega)
  · simpa using sineTable_entry i.toNat hi h0

/-! ### The quantizer ROM -/

/-- Both columns double every twelve rows. -/
theorem rom_octave : ∀ j < 150,
    magUnits (romF (j + 12)) = 2 * magUnits (romF j) ∧ magUnits (romT (j + 12)) = 2 * magUnits (romT j) := by decide +kernel

/-- The upper boundary of note `n`, a real number (R67). -/
noncomputable def noteBoundary (n : ℤ) : ℝ := 440 * (2 : ℝ) ^ (((n : ℝ) - 69 + 0.5) / 12)

/-- The boundary of a row by its twenty-fourth power, which is rational. -/
theorem noteBoundary_pow (j : ℕ) : noteBoundary (j - 36) ^ 24 * 2 ^ 209 = 440 ^ 24 * 2 ^ (2 * j) := by
  have hexp : ((((j : ℤ) - 36 : ℤ) : ℝ) - 69 + 0.5) / 12 * (24 : ℕ) = (2 * j : ℕ) - (209 : ℕ) := by push_cast; ring
  rw [noteBoundary, mul_pow, ← Real.rpow_mul_natCast two_pos.le, hexp, Real.rpow_sub two_pos, Real.rpow_natCast,
    Real.rpow_natCast]
  field_simp

/-- Values fall on the same side of a pattern without sign and of a real between that pattern and the next. -/
theorem f32Value_lt_iff_of_between {x : F32} {r : ℝ} (hx : x.toNat < 0x7F800000) (hlo : (magUnits x : ℝ) < r * 2 ^ 149)
    (hhi : r * 2 ^ 149 < magUnits (x + 1)) (y : F32) : (f32Value y : ℝ) < r ↔ f32Value y ≤ f32Value x := by
  have hxs := ((plus_finite_iff x).2 hx).1
  have hval := f32Value_eq_units x hxs
  have hxr : (f32Value x : ℝ) < r := by
    rw [hval]; push_cast
    rwa [div_lt_iff₀ (by positivity)]
  refine ⟨fun hy => ?_, fun hy => lt_of_le_of_lt (by exact_mod_cast hy) hxr⟩
  cases hs : signBit y with
  | true =>
    have hy0 : f32Value y ≤ 0 := by rw [f32Value_neg y hs]; exact neg_nonpos.2 (by positivity)
    exact hy0.trans (by rw [hval]; positivity)
  | false =>
    have hnext : (x + 1).toNat = x.toNat + 1 := by bv_omega
    have hns : signBit (x + 1) = false := by rw [signBit_false_iff]; omega
    rw [f32Value_eq_units y hs] at hy
    push_cast at hy
    rw [div_lt_iff₀ (by positivity)] at hy
    have hlt : y.toNat < (x + 1).toNat := (magUnits_lt_iff hs hns).1 (by exact_mod_cast hy.trans hhi)
    rw [f32_le_iff hs hxs, magUnits_le_iff hs hxs]
    omega

/-- The threshold of a note separates the values as its boundary does (R67). -/
theorem f32Value_lt_noteBoundary_iff {n : ℤ} (hlo : -36 ≤ n) (hhi : n ≤ 125) (y : F32) :
    (f32Value y : ℝ) < noteBoundary n ↔ f32Value y ≤ f32Value (noteThreshold n) := by
  obtain ⟨j, hj⟩ : ∃ j : ℕ, n = (j : ℤ) - 36 := ⟨(n + 36).toNat, by omega⟩
  have hj162 : j < 162 := by omega
  have hrow : noteThreshold n = romT j := by rw [noteThreshold_eq, hj, sub_add_cancel, Int.toNat_natCast]
  have hpos : 0 < noteBoundary n := by unfold noteBoundary; positivity
  have hpow := noteBoundary_pow j
  rw [← hj] at hpow
  obtain ⟨hbelow, habove⟩ := threshold_between j hj162 _ hpos hpow
  rw [hrow]
  exact f32Value_lt_iff_of_between (rom_finite j hj162).2 hbelow habove y

/-- A pattern without sign whose magnitude is twice another's has twice its value. -/
theorem f32Value_double {x y : F32} (hx : x.toNat < 0x7F800000) (hy : y.toNat < 0x7F800000)
    (h : magUnits y = 2 * magUnits x) : f32Value y = 2 * f32Value x := by
  rw [f32Value_eq_units y ((plus_finite_iff y).2 hy).1, f32Value_eq_units x ((plus_finite_iff x).2 hx).1, h]
  push_cast
  ring

/-- Settles O36: the boundaries by `f32Value_lt_noteBoundary_iff`, the octaves by `rom_octave`. -/
theorem quantizerRomRows : Obligations.QuantizerRomRows := by
  unfold Obligations.QuantizerRomRows
  refine ⟨fun n hlo hhi y _ => f32Value_lt_noteBoundary_iff hlo hhi y, fun n hlo hhi => ?_⟩
  have hrow : (n + 12 + 36).toNat = (n + 36).toNat + 12 := by omega
  have hj : (n + 36).toNat < 150 := by omega
  rw [noteFrequency_eq, noteFrequency_eq, noteThreshold_eq, noteThreshold_eq, hrow]
  generalize (n + 36).toNat = j at hj
  obtain ⟨hF, hT⟩ := rom_octave j hj
  obtain ⟨hfinF, hfinT⟩ := rom_finite j (by omega)
  obtain ⟨hfinF', hfinT'⟩ := rom_finite (j + 12) (by omega)
  exact ⟨f32Value_double hfinF hfinF' hF, f32Value_double hfinT hfinT' hT⟩

end Sys2Proof.Machine

/-! PROOFS. Encoding (R95, R105, R110): decoder and encoder undo each other, and the decoder follows the opcode table. -/

namespace Sys2Proof.Machine

/-! ### Decoder and encoder -/

/-- A write is encoded as the word it was decoded from. -/
theorem encode_decodeWrite (a : Addr) (d : Word) : encode (decodeWrite a d) = .bus (busWordOf true a d) := by
  revert a
  apply addr_forall
  and_intros <;> rfl

/-- So is a read, whose ignored data is kept (log entry 9). -/
theorem encode_decodeRead (a : Addr) (x : Word) : encode (decodeRead a x) = .bus (busWordOf false a x) := by
  revert a
  apply addr_forall
  and_intros <;> rfl

/-- The encoding of a decoded bus word is that word. -/
theorem encode_decodeBus (w : BusWord) : encode (decodeBus w) = .bus w := by
  conv_rhs => rw [← busWordOf_fields w]
  unfold decodeBus
  cases fieldW w with
  | true => exact encode_decodeWrite _ _
  | false => exact encode_decodeRead _ _

/-- A decoded write has its address in its row's range. -/
theorem wellFormed_decodeWrite (a : Addr) (d : Word) : (decodeWrite a d).wellFormed = true := by
  revert a
  apply addr_forall
  and_intros <;> rfl

/-- So has a decoded read. -/
theorem wellFormed_decodeRead (a : Addr) (x : Word) : (decodeRead a x).wellFormed = true := by
  revert a
  apply addr_forall
  and_intros <;> rfl

/-- Every bus word decodes to a well-formed instruction (R98, R105). -/
theorem wellFormed_decodeBus (w : BusWord) : (decodeBus w).wellFormed = true := by
  unfold decodeBus
  cases fieldW w with
  | true => exact wellFormed_decodeWrite _ _
  | false => exact wellFormed_decodeRead _ _

/-- A write to a read-only address is WRIGN_4_7 (R105). -/
theorem decodeWrite_readOnly (a : Addr) (d : Word) (hlo : 4 ≤ a.toNat) (hhi : a.toNat ≤ 7) : decodeWrite a d = .wrign47 a d := by
  obtain ⟨n, hn⟩ : ∃ n, a.toNat = n + 4 := ⟨a.toNat - 4, by omega⟩
  simp only [decodeWrite, hn]
  exact if_pos (by omega)

/-- A write to a reserved address is WRIGN_8_F (R105). -/
theorem decodeWrite_reserved (a : Addr) (d : Word) (h : 8 ≤ a.toNat) : decodeWrite a d = .wrign8F a d := by
  obtain ⟨n, hn⟩ : ∃ n, a.toNat = n + 4 := ⟨a.toNat - 4, by omega⟩
  simp only [decodeWrite, hn]
  exact if_neg (by omega)

/-- Every well-formed instruction but TICK is what some bus word decodes to. -/
theorem exists_decodeBus_eq {i : Instr} (h : i.wellFormed = true) (ht : i ≠ .tick) : ∃ w, decodeBus w = i := by
  have write (a : Addr) (d : Word) : ∃ w, decodeBus w = decodeWrite a d := ⟨_, decodeBus_busWordOf true a d⟩
  have read (a : Addr) (x : Word) : ∃ w, decodeBus w = decodeRead a x := ⟨_, decodeBus_busWordOf false a x⟩
  cases i with
  | setwave d => exact write 0 d
  | setfreq d => exact write 1 d
  | setvol d => exact write 2 d
  | setquant d => exact write 3 d
  | wrign47 a d =>
    obtain ⟨hlo, hhi⟩ := of_decide_eq_true h
    exact decodeWrite_readOnly a d hlo hhi ▸ write a d
  | wrign8F a d => exact decodeWrite_reserved a d (of_decide_eq_true h) ▸ write a d
  | rdwave x => exact read 0 x
  | rdfreq x => exact read 1 x
  | rdvol x => exact read 2 x
  | rdquant x => exact read 3 x
  | rdefreq x => exact read 4 x
  | rdinc x => exact read 5 x
  | rdnote x => exact read 6 x
  | rdout x => exact read 7 x
  | rdrsv a x => exact decodeRead_reserved a x (of_decide_eq_true h) ▸ read a x
  | tick => exact absurd rfl ht

/-- Settles O1: a well-formed instruction is TICK or decoded from a bus word, and that word is its encoding. -/
theorem decodeEncodeAgree : Obligations.DecodeEncodeAgree := by
  unfold Obligations.DecodeEncodeAgree
  intro i h
  by_cases ht : i = .tick
  · subst ht; rfl
  · obtain ⟨w, rfl⟩ := exists_decodeBus_eq h ht
    rw [encode_decodeBus]; rfl

/-- Settles O2: `wellFormed_decodeBus` and `encode_decodeBus`. -/
theorem encodeDecodeAgree : Obligations.EncodeDecodeAgree := by
  unfold Obligations.EncodeDecodeAgree
  exact fun w => ⟨wellFormed_decodeBus w, encode_decodeBus w⟩

/-! ### The opcode table -/

/-- The mask of a row takes no bit of the data (R110). -/
theorem fieldD_mask : ∀ r ∈ opcodeTable, fieldD r.mask = 0 := by decide

/-- So the data of a word does not decide to which row it belongs. -/
theorem rowMatches_data {r : OpcodeRow} (hr : r ∈ opcodeTable) (v : Bool) (a : Addr) (d : Word) :
    rowMatches r (busWordOf v a d) = rowMatches r (busWordOf v a 0) := by
  have hmask := busWordOf_fields r.mask
  rw [fieldD_mask r hr] at hmask
  unfold rowMatches
  rw [← hmask, busWordOf_and, busWordOf_and]
  simp

/-- Nor does it decide the mnemonic. -/
theorem mnemonic_data (v : Bool) (a : Addr) (d : Word) :
    mnemonic (decodeBus (busWordOf v a d)) = mnemonic (decodeBus (busWordOf v a 0)) := by
  rw [decodeBus_busWordOf, decodeBus_busWordOf]
  revert a
  cases v <;> apply addr_forall <;> and_intros <;> rfl

/-- The 480 cases of row, `W` and `A`: a row takes exactly the words that decode to its mnemonic. -/
theorem rowMatches_iff_mnemonic_fields : ∀ r ∈ opcodeTable, ∀ (v : Bool) (a : Addr),
    rowMatches r (busWordOf v a 0) = true ↔ mnemonic (decodeBus (busWordOf v a 0)) = r.mnemonic := by decide +kernel

/-- A row takes exactly the words that decode to its mnemonic (R110). -/
theorem rowMatches_iff_mnemonic (w : BusWord) (r : OpcodeRow) (hr : r ∈ opcodeTable) :
    rowMatches r w = true ↔ mnemonic (decodeBus w) = r.mnemonic := by
  rw [← busWordOf_fields w, rowMatches_data hr, mnemonic_data]
  exact rowMatches_iff_mnemonic_fields r hr _ _

/-- A mnemonic names one constructor. -/
theorem exists_iff_mnemonic (i : Instr) :
    ((∃ d, i = .setwave d) ↔ mnemonic i = "SETWAVE") ∧ ((∃ d, i = .setfreq d) ↔ mnemonic i = "SETFREQ") ∧
    ((∃ d, i = .setvol d) ↔ mnemonic i = "SETVOL") ∧ ((∃ d, i = .setquant d) ↔ mnemonic i = "SETQUANT") ∧
    ((∃ a d, i = .wrign47 a d) ↔ mnemonic i = "WRIGN_4_7") ∧ ((∃ a d, i = .wrign8F a d) ↔ mnemonic i = "WRIGN_8_F") ∧
    ((∃ x, i = .rdwave x) ↔ mnemonic i = "RDWAVE") ∧ ((∃ x, i = .rdfreq x) ↔ mnemonic i = "RDFREQ") ∧
    ((∃ x, i = .rdvol x) ↔ mnemonic i = "RDVOL") ∧ ((∃ x, i = .rdquant x) ↔ mnemonic i = "RDQUANT") ∧
    ((∃ x, i = .rdefreq x) ↔ mnemonic i = "RDEFREQ") ∧ ((∃ x, i = .rdinc x) ↔ mnemonic i = "RDINC") ∧
    ((∃ x, i = .rdnote x) ↔ mnemonic i = "RDNOTE") ∧ ((∃ x, i = .rdout x) ↔ mnemonic i = "RDOUT") ∧
    ((∃ a x, i = .rdrsv a x) ↔ mnemonic i = "RDRSV") := by
  cases i <;> simp [mnemonic]

/-- No two rows have one mnemonic. -/
theorem opcodeTable_mnemonic_injective : ∀ q ∈ opcodeTable, ∀ r ∈ opcodeTable, q.mnemonic = r.mnemonic → q = r := by
  decide +kernel

/-- The mnemonic of a decoded bus word stands in the table. -/
theorem exists_row_of_mnemonic (w : BusWord) : ∃ r ∈ opcodeTable, r.mnemonic = mnemonic (decodeBus w) := by
  rw [← busWordOf_fields w, mnemonic_data]
  generalize fieldW w = v
  generalize fieldA w = a
  revert v a
  decide +kernel

/-- Settles O3: `rowMatches_iff_mnemonic` for each row of the table, with a mnemonic of its own for each constructor. -/
theorem decodeFollowsMatchAndMask : Obligations.DecodeFollowsMatchAndMask := by
  unfold Obligations.DecodeFollowsMatchAndMask
  refine ⟨fun w => ?_, rfl⟩
  have hrow := rowMatches_iff_mnemonic w
  have hclauses := hrow
  simp only [opcodeTable, List.forall_mem_cons, rowMatches, beq_iff_eq] at hclauses
  simp only [hclauses, exists_iff_mnemonic, iff_self, true_and]
  obtain ⟨r, hr, hname⟩ := exists_row_of_mnemonic w
  exact ⟨r, hr, (hrow r hr).2 hname.symm, hname, fun q hq hmatch =>
    opcodeTable_mnemonic_injective q hq r hr (((hrow q hq).1 hmatch).symm.trans hname.symm)⟩

/-- Settles O4, by running the decoder. -/
theorem vectorWordsDecode : Obligations.VectorWordsDecode := by
  unfold Obligations.VectorWordsDecode
  and_intros <;> rfl

end Sys2Proof.Machine

/-! PROOFS. The clock cycle (R93): no cycle stops, what the cycle of one operation does, and a cycle element by element. -/

namespace Sys2Proof.Machine

/-! ### Completion -/

/-- No operation stops: every meaning answers a state (R98, R159, R200). -/
theorem exec_completes (i : Instr) (s : State) : ∃ t, exec i s = .next t := by
  cases i <;> exact ⟨_, rfl⟩

/-- No cycle stops, since neither of its operations does. -/
theorem cycle_completes (p : Pins) (s : State) : ∃ t, cycle p s = .next t := by
  cases hr : p.rst with
  | true => exact ⟨_, cycle_reset p s hr⟩
  | false =>
    obtain ⟨b, hb⟩ := exec_completes (decodeBus p.busWord) s
    cases hv : p.cfgValid <;> cases ht : p.tick
    case false.false => exact ⟨_, cycle_idle p s hr hv ht⟩
    case false.true => exact ⟨_, cycle_tick p s hr hv ht⟩
    case true.false => exact ⟨b, (cycle_bus p s hr hv ht).trans hb⟩
    case true.true => exact ⟨_, by rw [cycle_both p s hr hv ht, hb, exec_tick, bothInCycle_next]⟩

/-- Settles O10: `exec_completes` and `cycle_completes`. -/
theorem everyCycleCompletes : Obligations.EveryCycleCompletes := by
  unfold Obligations.EveryCycleCompletes
  exact ⟨exec_completes, fun s => cycle_completes s.pins s.beginCycle⟩

/-! ### The cycle of one operation -/

/-- What a bus word decodes to, in the words of `decode`. -/
theorem decode_bus_eq_ok {w : BusWord} {i : Instr} : decode (.bus w) = .ok i ↔ decodeBus w = i := by
  simp [decode]

/-- Only the `tick` port at 1 decodes, to TICK (R92). -/
theorem eq_tick_of_decode_tickPort {t : BitVec 1} {i : Instr} (h : decode (.tickPort t) = .ok i) : t = 1 ∧ i = .tick := by
  simp only [decode] at h
  split at h
  · cases h; exact ⟨‹_›, rfl⟩
  · cases h

/-- Settles O5: `cycle_bus`, `cycle_tick`, `cycle_both` and `cycle_idle` on the pins of the state. -/
theorem stepRunsTheDecodedOperation : Obligations.StepRunsTheDecodedOperation := by
  unfold Obligations.StepRunsTheDecodedOperation
  intro s
  refine ⟨rfl, fun hr hv ht i hi => ?_, fun hr hv ht => cycle_tick _ _ hr hv ht, fun hr hv ht i hi => ?_,
    fun hr hv ht => cycle_idle _ _ hr hv ht⟩
  · rw [← decode_bus_eq_ok.1 hi]
    exact cycle_bus _ _ hr hv ht
  · rw [← decode_bus_eq_ok.1 hi]
    exact cycle_both _ _ hr hv ht

/-- A step takes the first of the listed cycles. -/
theorem step_cons (p : Pins) (rest : List Pins) (s : State) :
    step { s with inputs := p :: rest } = cycle p { s with inputs := rest, cfgRdata := 0 } := rfl

/-- The cycle that carries one operation runs it. -/
theorem cycle_ofOpWord {o : OpWord} {i : Instr} (h : decode o = .ok i) (s : State) : cycle (Pins.ofOpWord o) s = exec i s := by
  cases o with
  | bus w =>
    rw [← decode_bus_eq_ok.1 h, cycle_bus _ _ rfl rfl rfl, busWord_ofOpWord]
  | tickPort t =>
    obtain ⟨rfl, rfl⟩ := eq_tick_of_decode_tickPort h
    exact cycle_tick _ _ rfl rfl rfl

/-- With `tick` beside it, the cycle of a bus word runs both (R93). -/
theorem cycle_ofOpWord_tick (w : BusWord) (s : State) :
    cycle { Pins.ofOpWord (.bus w) with tick := true } s = bothInCycle (exec (decodeBus w) s) (exec .tick s) := by
  have hword : Pins.busWord { Pins.ofOpWord (.bus w) with tick := true } = w := busWord_ofOpWord w
  rw [cycle_both _ _ rfl rfl rfl, hword]

/-- A word in the opcode table's numbering decodes as the operation it carries. -/
theorem decodeTableWord_eq_some {nbits w : Nat} {i : Instr} (h : decodeTableWord nbits w = some i) :
    ∃ o, tableWord nbits w = .ok o ∧ decode o = .ok i := by
  unfold decodeTableWord at h
  cases ho : tableWord nbits w with
  | error e => rw [ho] at h; cases h
  | ok o =>
    rw [ho] at h
    change (decode o).toOption = some i at h
    refine ⟨o, rfl, ?_⟩
    cases hd : decode o with
    | error e => rw [hd] at h; cases h
    | ok j => rw [hd] at h; cases h; rfl

/-- Settles O6: the placed word is the first of the listed cycles, and `cycle_ofOpWord`. -/
theorem placedWordRunsNext : Obligations.PlacedWordRunsNext := by
  unfold Obligations.PlacedWordRunsNext
  intro s nbits w i h
  obtain ⟨o, hword, hdecode⟩ := decodeTableWord_eq_some h
  unfold State.withFetchWord
  rw [hword]
  exact (step_cons _ _ s).trans (cycle_ofOpWord hdecode _)

/-! ### Held ticks -/

/-- A cycle with nothing but a tick. -/
theorem step_tick_cons (rest : List Pins) (s : State) :
    step { s with inputs := { Pins.idle with tick := true } :: rest } =
      .next { emitSample { s with cfgRdata := 0 } with inputs := rest } := by
  rw [step_cons, cycle_tick _ _ rfl rfl rfl, exec_tick]
  rfl

/-- A run goes on from the state of its first step. -/
theorem run_succ_of_step {s t : State} (h : step s = .next t) (k : Nat) :
    Host.Core.run Sys2Proof.core (k + 1) s = Host.Core.run Sys2Proof.core k t := by
  have hcore : Sys2Proof.core.step s = .next t := h
  simp only [Host.Core.run, hcore]

/-- One TICK after another; after the first cycle nothing stands on `cfg_rdata`. -/
theorem run_held_tick (k : Nat) (s : State) (rest : List Pins) :
    Host.Core.run Sys2Proof.core (k + 1) { s with inputs := List.replicate (k + 1) { Pins.idle with tick := true } ++ rest } =
      .next { emitSample^[k + 1] { s with cfgRdata := 0 } with inputs := rest } := by
  induction k generalizing s with
  | zero => exact run_succ_of_step (step_tick_cons rest s) 0
  | succ k ih =>
    rw [List.replicate_succ, List.cons_append, run_succ_of_step (step_tick_cons _ s), Function.iterate_succ_apply]
    exact ih (emitSample { s with cfgRdata := 0 })

/-- Settles O9: `run_held_tick` on the pins of the state. -/
theorem heldTickPerformsThatManyTicks : Obligations.HeldTickPerformsThatManyTicks := by
  unfold Obligations.HeldTickPerformsThatManyTicks
  intro k s rest h
  have hrun := run_held_tick k s rest
  rwa [← h] at hrun

/-! ### One cycle, element by element -/

/-- A decoded write drives nothing on `cfg_rdata` (R93). -/
theorem decodeWrite_cfgRdata {a : Addr} {d : Word} {s t : State} (h : exec (decodeWrite a d) s = .next t) :
    t.cfgRdata = s.cfgRdata := by
  rcases decodeWrite_cases a d with hi | hi | hi | hi | hign
  · rw [hi] at h; cases h; rfl
  · rw [hi, exec_setfreq] at h; cases h; simp
  · rw [hi] at h; cases h; rfl
  · rw [hi] at h; cases h; rfl
  · rw [exec_decodeWrite_ignored a d s hign] at h; cases h; rfl

/-- What the bus does is what the write of the cycle does, if there is one, with the answer of the cycle's read, else 0, on
`cfg_rdata` (R93). -/
theorem State.BusPart.exists_write {s b : State} (h : s.BusPart b) :
    ∃ w, (if s.pins.cfgValid && s.pins.cfgWrite then exec (decodeWrite s.pins.cfgAddr s.pins.cfgWdata) s.beginCycle = .next w
        else w = s.beginCycle) ∧
      b = answerRead (if s.pins.cfgValid && !s.pins.cfgWrite then readRegister s.pins.cfgAddr s else 0) w := by
  unfold State.BusPart Pins.busWord at h
  rw [decodeBus_busWordOf] at h
  cases hv : s.pins.cfgValid <;> cases hw : s.pins.cfgWrite <;> rw [hv, hw] at h
  case false.false | false.true => exact ⟨_, rfl, h⟩
  case true.false =>
    cases (exec_decodeRead _ _ _).symm.trans h
    exact ⟨_, rfl, rfl⟩
  case true.true =>
    have hzero : b.cfgRdata = 0 := decodeWrite_cfgRdata h
    exact ⟨b, h, by rw [← hzero]; rfl⟩

/-- What the bus does leaves the pins after this cycle's. -/
theorem State.BusPart.inputs {s b : State} (h : s.BusPart b) : b.inputs = s.inputs.tail := by
  rcases h.cases with rfl | ⟨i, hi, hexec⟩
  · rfl
  · obtain ⟨-, -, -, hinputs⟩ := hi.frame hexec
    exact hinputs

/-- Without a TICK the elements of TICK are those of the start of the cycle. -/
theorem State.BusPart.mergeTick_beginCycle {s b : State} (h : s.BusPart b) : mergeTick b s.beginCycle = b := by
  obtain ⟨hphase, hout, hctr⟩ := h.frame
  simp only [mergeTick, State.beginCycle_phase, State.beginCycle_out, State.beginCycle_freeCtr, ← hphase, ← hout, ← hctr]

/-- Settles O7: by `step_cases` a cycle without reset merges what the bus does, which `exists_write` takes apart, with the TICK. -/
theorem oneClockCycle : Obligations.OneClockCycle := by
  unfold Obligations.OneClockCycle
  intro s
  refine ⟨fun hr => cycle_reset _ _ hr, fun hr => ?_⟩
  obtain ⟨t, ht⟩ := cycle_completes s.pins s.beginCycle
  rcases step_cases ht with ⟨hr', -⟩ | ⟨-, b, hb, rfl⟩
  · rw [hr] at hr'; cases hr'
  obtain ⟨w, hw, hbw⟩ := hb.exists_write
  have hinputs : w.inputs = s.inputs.tail := by rw [← hb.inputs, hbw, answerRead_inputs]
  refine ⟨w, if s.pins.tick then emitSample s.beginCycle else s.beginCycle, _, hw, ?_, ht, ?_⟩
  · cases s.pins.tick <;> rfl
  · have hmerge : (if s.pins.tick then mergeTick b (emitSample s.beginCycle) else b) =
        mergeTick b (if s.pins.tick then emitSample s.beginCycle else s.beginCycle) := by
      split
      · rfl
      · exact hb.mergeTick_beginCycle.symm
    rw [hmerge, hbw]
    exact ⟨rfl, rfl, rfl, rfl, rfl, rfl, rfl, rfl, rfl, rfl, rfl, rfl, hinputs⟩

/-- Settles O11: without TICK and reset a cycle is what the bus does, and that leaves OUT. -/
theorem dacOutChangesOnlyByTickOrReset : Obligations.DacOutChangesOnlyByTickOrReset := by
  unfold Obligations.DacOutChangesOnlyByTickOrReset
  refine ⟨fun _ => rfl, fun s t h hrst htick => ?_⟩
  rcases step_cases h with ⟨hrst', -⟩ | ⟨-, b, hb, rfl⟩
  · rw [hrst] at hrst'; cases hrst'
  · obtain ⟨-, hout, -⟩ := hb.frame
    simpa [htick, State.dacOut] using hout

end Sys2Proof.Machine

/-! PROOFS. Assembler text (R108, R109): the cycles of a parsed line, and the cycles of the canonical text of every operation. -/

namespace Sys2Proof.Machine

/-! ### Parsed lines -/

/-- Settles O45: the cycle of a bus word runs the operation it decodes to, with or without `tick` beside it. -/
theorem assemblerLinesRunTheirOperations : Obligations.AssemblerLinesRunTheirOperations := by
  unfold Obligations.AssemblerLinesRunTheirOperations
  refine ⟨fun i s rest h ht => ?_, fun k s rest => ?_, fun s rest => ?_⟩
  · obtain ⟨w, rfl⟩ := exists_decodeBus_eq h ht
    simp only [AsmLine.pins, encode_decodeBus, List.singleton_append, step_cons]
    exact ⟨cycle_ofOpWord rfl _, cycle_ofOpWord_tick w _⟩
  · exact (step_cons _ _ s).trans (cycle_tick _ _ rfl rfl rfl)
  · exact (step_cons _ _ s).trans (cycle_idle _ _ rfl rfl rfl)

/-- Settles O46, by running the assembler. -/
theorem assemblerLinesOfThePrograms : Obligations.AssemblerLinesOfThePrograms := by
  unfold Obligations.AssemblerLinesOfThePrograms
  decide +kernel

/-! ### Tokens of a line, alone and with `|| tick` after it -/

/-- Characters that make one token, as they stand. -/
abbrev IsWord (w : List Char) : Prop := w.all plainChar = true ∧ w ≠ []

theorem isWord_wordText (d : Word) : IsWord (wordText d) := ⟨wordText_plain d, wordText_ne_nil d⟩

theorem isWord_addrText (a : Addr) : IsWord (addrText a) := ⟨addrText_plain a, addrText_ne_nil a⟩

theorem isWord_toDigits (n : ℕ) : IsWord (Nat.toDigits 10 n) := ⟨(toDigits_plain n).1, Nat.toDigits_ne_nil⟩

/-- A sign before a word. -/
theorem isWord_neg {w : List Char} (hw : IsWord w) : IsWord ('-' :: w) := by
  refine ⟨?_, List.cons_ne_nil _ _⟩
  rw [List.all_cons, hw.1]; decide

/-- The line falls into these tokens, and with `|| tick` after it into the same and the two of `|| tick`. -/
def HasTokens (text : List Char) (toks : List (List Char)) : Prop :=
  tokensFrom [] text = toks ∧ tokensFrom [] (text ++ " || tick".toList) = toks ++ ["||".toList, "tick".toList]

/-- A line of one word. -/
theorem IsWord.hasTokens {w : List Char} (hw : IsWord w) : HasTokens w [w] :=
  ⟨tokensFrom_only_word w hw.1 hw.2, tokensFrom_word_tick w hw.1 hw.2⟩

/-- A word and a blank before a line. -/
theorem HasTokens.word_space {w text : List Char} {toks : List (List Char)} (ht : HasTokens text toks) (hw : IsWord w) :
    HasTokens (w ++ ' ' :: text) (w :: toks) := by
  obtain ⟨halone, htick⟩ := ht
  constructor
  · rw [tokensFrom_word_space w _ hw.1 hw.2, halone]
  · rw [List.append_assoc, List.cons_append, tokensFrom_word_space w _ hw.1 hw.2, htick]; rfl

/-- A word, a comma and a blank before a line. -/
theorem HasTokens.word_comma {w text : List Char} {toks : List (List Char)} (ht : HasTokens text toks) (hw : IsWord w) :
    HasTokens (w ++ ',' :: ' ' :: text) (w :: [','] :: toks) := by
  obtain ⟨halone, htick⟩ := ht
  constructor
  · rw [tokensFrom_word_comma w _ hw.1 hw.2, tokensFrom_blank, halone]
  · rw [List.append_assoc, List.cons_append, List.cons_append, tokensFrom_word_comma w _ hw.1 hw.2, tokensFrom_blank, htick]; rfl

/-! ### Lines of one bus operation -/

/-- The line is the text of this bus operation. -/
def IsBusText (text : List Char) (i : Instr) : Prop := ∃ toks, HasTokens text toks ∧ busLine toks = some i

/-- A bus operation is written in one, two or four tokens. -/
theorem busLine_shape {toks : List (List Char)} {i : Instr} (h : busLine toks = some i) :
    (∃ m, toks = [m]) ∨ (∃ m v, toks = [m, v]) ∨ ∃ m r v, toks = [m, r, [','], v] := by
  unfold busLine at h
  split at h
  · exact .inl ⟨_, rfl⟩
  · exact .inr (.inl ⟨_, _, rfl⟩)
  · exact .inr (.inr ⟨_, _, _, rfl⟩)
  · cases h

/-- Its tokens are no line of another kind, alone or with `|| tick` after them (R108, R109). -/
theorem asmLineOf_of_busLine {toks : List (List Char)} {i : Instr} (h : busLine toks = some i) :
    asmLineOf toks = some (.op i) ∧ asmLineOf (toks ++ ["||".toList, "tick".toList]) = some (.opTick i) := by
  rcases busLine_shape h with ⟨m, rfl⟩ | ⟨m, v, rfl⟩ | ⟨m, r, v, rfl⟩
  all_goals
    refine asmLineOf_op _ i m _ rfl h ?_ ?_ ?_ ?_
    · rintro rfl; cases h
    · rintro rfl; cases h
    · rintro rfl; cases h
  · simp
  · rintro heq; cases heq; cases h
  · simp

/-- The text of a bus operation gives its word in a cycle of its own, and with `|| tick` after it the same with `tick`. -/
theorem IsBusText.assembleLine {text : List Char} {i : Instr} (h : IsBusText text i) :
    assembleLine text = some [Pins.ofOpWord (encode i)] ∧
    assembleLine (text ++ " || tick".toList) = some [{ Pins.ofOpWord (encode i) with tick := true }] := by
  obtain ⟨toks, ⟨halone, htick⟩, hbus⟩ := h
  obtain ⟨hop, hopTick⟩ := asmLineOf_of_busLine hbus
  unfold Machine.assembleLine
  rw [halone, htick, hop, hopTick]
  exact ⟨rfl, rfl⟩

/-! ### The canonical texts -/

/-- A mnemonic alone. -/
theorem isBusText_mnemonic {m : List Char} {i : Instr} (hm : IsWord m) (h : busLine [m] = some i) : IsBusText m i :=
  ⟨_, hm.hasTokens, h⟩

/-- A mnemonic and one operand. -/
theorem isBusText_operand {m v : List Char} {i : Instr} (hm : IsWord m) (hv : IsWord v) (h : busLine [m, v] = some i) :
    IsBusText (m ++ ' ' :: v) i :=
  ⟨_, hv.hasTokens.word_space hm, h⟩

/-- The mnemonic of a write, and a text of its 32-bit value. -/
theorem isBusText_write {m v : List Char} {d : Word} {f : Word → Instr} (hm : IsWord m) (hv : IsWord v) (hd : wordLiteral v = some d)
    (h : busLine [m, v] = (wordLiteral v).map f) : IsBusText (m ++ ' ' :: v) (f d) :=
  isBusText_operand hm hv (by rw [h, hd]; rfl)

/-- The operand of a write to a read-only or reserved address is a plain value (R126). -/
theorem writeLine_ignored (a : Addr) (v : List Char) (h : 4 ≤ a.toNat) : writeLine a.toNat v = (wordLiteral v).map (decodeWrite a) := by
  unfold writeLine
  split
  case h_5 => rw [if_pos a.isLt, BitVec.ofNat_toNat, BitVec.setWidth_eq]
  all_goals omega

/-- `wrign`, its address and its value. -/
theorem isBusText_wrign {a : Addr} {d : Word} {i : Instr} (h : 4 ≤ a.toNat) (hi : decodeWrite a d = i) :
    IsBusText ("wrign".toList ++ ' ' :: (addrText a ++ ',' :: ' ' :: wordText d)) i := by
  refine ⟨_, ((isWord_wordText d).hasTokens.word_comma (isWord_addrText a)).word_space (by decide), ?_⟩
  have hline : busLine ["wrign".toList, addrText a, [','], wordText d] =
      (unsignedLiteral (addrText a)).bind fun n => if 4 ≤ n then writeLine n (wordText d) else none := rfl
  rw [hline, unsignedLiteral_addrText, Option.bind_some, if_pos h, writeLine_ignored a _ h, wordLiteral_wordText, Option.map_some, hi]

/-- `rdrsv` and its address. -/
theorem isBusText_rdrsv (a : Addr) (h : 8 ≤ a.toNat) : IsBusText ("rdrsv".toList ++ ' ' :: addrText a) (.rdrsv a 0) := by
  refine isBusText_operand (by decide) (isWord_addrText a) ?_
  have hline : busLine ["rdrsv".toList, addrText a] =
      (unsignedLiteral (addrText a)).bind fun n => if 8 ≤ n then readLine n else none := rfl
  rw [hline, unsignedLiteral_addrText, Option.bind_some, if_pos h, readLine, if_pos a.isLt, BitVec.ofNat_toNat, BitVec.setWidth_eq,
    decodeRead_reserved a 0 h]

/-- `setvol` and its value, in any form. -/
theorem isBusText_setvol {v : List Char} {d : Word} (hv : IsWord v) (hd : wordLiteral v = some d) :
    IsBusText ("setvol".toList ++ ' ' :: v) (.setvol d) :=
  isBusText_write (by decide) hv hd rfl

/-- The canonical text of every operation but TICK is the text of that bus operation, a read's with data 0. -/
theorem isBusText_asmText {i : Instr} (h : i.wellFormed = true) (ht : i ≠ .tick) : IsBusText (asmText i) (readDataZero i) := by
  cases i with
  | setwave d =>
    exact isBusText_write (m := "setwave".toList) (f := .setwave) (by decide) (isWord_wordText d) (wordLiteral_wordText d) rfl
  | setfreq d =>
    exact isBusText_write (m := "setfreq".toList) (f := .setfreq) (by decide) (isWord_wordText d) (wordLiteral_wordText d) rfl
  | setvol d => exact isBusText_setvol (isWord_wordText d) (wordLiteral_wordText d)
  | setquant d =>
    exact isBusText_write (m := "setquant".toList) (f := .setquant) (by decide) (isWord_wordText d) (wordLiteral_wordText d) rfl
  | wrign47 a d =>
    obtain ⟨hlo, hhi⟩ := of_decide_eq_true h
    exact isBusText_wrign hlo (decodeWrite_readOnly a d hlo hhi)
  | wrign8F a d =>
    have hlo : 8 ≤ a.toNat := of_decide_eq_true h
    exact isBusText_wrign (by omega) (decodeWrite_reserved a d hlo)
  | rdwave x => exact isBusText_mnemonic (m := "rdwave".toList) (by decide) rfl
  | rdfreq x => exact isBusText_mnemonic (m := "rdfreq".toList) (by decide) rfl
  | rdvol x => exact isBusText_mnemonic (m := "rdvol".toList) (by decide) rfl
  | rdquant x => exact isBusText_mnemonic (m := "rdquant".toList) (by decide) rfl
  | rdefreq x => exact isBusText_mnemonic (m := "rdefreq".toList) (by decide) rfl
  | rdinc x => exact isBusText_mnemonic (m := "rdinc".toList) (by decide) rfl
  | rdnote x => exact isBusText_mnemonic (m := "rdnote".toList) (by decide) rfl
  | rdout x => exact isBusText_mnemonic (m := "rdout".toList) (by decide) rfl
  | rdrsv a x => exact isBusText_rdrsv a (of_decide_eq_true h)
  | tick => exact absurd rfl ht

/-! ### Decimal numbers -/

/-- A negative decimal integer is its value in two's complement (R108). -/
theorem wordLiteral_neg_toDigits (n : ℕ) (h : n ≤ 2 ^ 31) : wordLiteral ('-' :: Nat.toDigits 10 n) = some (BitVec.ofInt 32 (-(n : ℤ))) := by
  simp only [wordLiteral, natLiteral_toDigits, Option.bind_some, if_pos h]

/-- `ticks` and a number in decimal. -/
theorem assembleLine_ticks (k : ℕ) :
    assembleLine ("ticks".toList ++ ' ' :: Nat.toDigits 10 k) = some (List.replicate k { Pins.idle with tick := true }) := by
  obtain ⟨htokens, -⟩ := (isWord_toDigits k).hasTokens.word_space (w := "ticks".toList) (by decide)
  have hline : asmLineOf ["ticks".toList, Nat.toDigits 10 k] = (unsignedLiteral (Nat.toDigits 10 k)).map .ticks := rfl
  rw [assembleLine, htokens, hline, unsignedLiteral_toDigits]
  rfl

/-- Settles O47: `isBusText_asmText` for the canonical texts, `isBusText_setvol` for decimal values, `assembleLine_ticks`. -/
theorem assemblerTextOfEveryOperation : Obligations.AssemblerTextOfEveryOperation := by
  unfold Obligations.AssemblerTextOfEveryOperation
  refine ⟨fun i h => ?_, fun n hn => ?_, fun n hn => ?_, assembleLine_ticks⟩
  · by_cases ht : i = .tick
    · subst ht
      exact ⟨by decide +kernel, fun hne => absurd rfl hne⟩
    · obtain ⟨halone, htick⟩ := (isBusText_asmText h ht).assembleLine
      exact ⟨halone, fun _ => htick⟩
  · exact (isBusText_setvol (isWord_toDigits n) (wordLiteral_toDigits n hn)).assembleLine.1
  · exact (isBusText_setvol (isWord_neg (isWord_toDigits n)) (wordLiteral_neg_toDigits n hn)).assembleLine.1

end Sys2Proof.Machine

/-! PROOFS. The configuration operations (R120 to R138): the frequency clamp and its bounds, the increment, the other writes and the
reads. -/

namespace Sys2Proof.Machine

/-! ### Signs and values -/

/-- A finite pattern is neither a NaN nor an infinity. -/
theorem not_isNaN_isInf_of_finite {x : F32} (h : isFinite x = true) : isNaN x = false ∧ isInf x = false := by
  have hexp := (isFinite_iff x).1 h
  simp [isNaN, isInf, hexp]

/-- An infinity is no NaN and no zero. -/
theorem not_isNaN_isZero_of_isInf {x : F32} (h : isInf x = true) : isNaN x = false ∧ isZero x = false := by
  simp only [isInf, Bool.and_eq_true, beq_iff_eq] at h
  simp [isNaN, isZero, h]

/-- The zeros are the patterns of magnitude 0. -/
theorem isZero_iff_magUnits (x : F32) : isZero x = true ↔ magUnits x = 0 := by
  by_cases hexp : expField x = 0 <;> simp [isZero, magUnits, hexp]

/-- A pattern has a positive value unless it has a sign or is a zero. -/
theorem f32Value_pos_iff (x : F32) : 0 < f32Value x ↔ signBit x = false ∧ isZero x = false := by
  cases hs : signBit x with
  | true =>
    have hneg : f32Value x ≤ 0 := by rw [f32Value_neg x hs]; exact neg_nonpos.2 (by positivity)
    simp [hneg.not_gt]
  | false =>
    have hzero : isZero x = false ↔ 0 < magUnits x := by
      rw [← Bool.not_eq_true, isZero_iff_magUnits, Nat.pos_iff_ne_zero]
    rw [f32Value_eq_units x hs, div_pos_iff_of_pos_right (by positivity), Nat.cast_pos, hzero]
    simp

/-! ### The frequency clamp (R122) -/

/-- FMAX is 11025.0 (R7). -/
theorem f32Value_fMax : f32Value fMax = 11025 := by
  have hunits : magUnits fMax = 11025 * 2 ^ 149 := by decide +kernel
  rw [f32Value_eq_units fMax (by decide), hunits]
  norm_num

/-- Between numbers without sign, the machine's comparison is that of the values. -/
theorem leMag_iff_f32Value {x y : F32} (hx : signBit x = false) (hy : signBit y = false) :
    leMag x y = true ↔ f32Value x ≤ f32Value y := by
  rw [leMag_iff, f32_le_iff hx hy]

/-- A NaN is clamped to +0. -/
theorem clampF_of_isNaN {x : F32} (h : isNaN x = true) : clampF x = 0 := by
  simp [clampF, h]

/-- Every pattern with a sign and both zeros are clamped to +0. -/
theorem clampF_of_sign_or_zero {x : F32} (h : signBit x = true ∨ isZero x = true) : clampF x = 0 := by
  have hneg : (signBit x || isZero x) = true := by rwa [Bool.or_eq_true]
  simp [clampF, hneg]

/-- Plus infinity is clamped to FMAX. -/
theorem clampF_of_plus_inf {x : F32} (h : isInf x = true) (hs : signBit x = false) : clampF x = fMax := by
  obtain ⟨hnan, hzero⟩ := not_isNaN_isZero_of_isInf h
  simp [clampF, hnan, hs, hzero, h]

/-- A finite positive number is clamped from above only. -/
theorem clampF_of_finite_pos {x : F32} (hf : isFinite x = true) (hpos : 0 < f32Value x) :
    clampF x = if f32Value x ≤ 11025 then x else fMax := by
  obtain ⟨hnan, hinf⟩ := not_isNaN_isInf_of_finite hf
  obtain ⟨hs, hzero⟩ := (f32Value_pos_iff x).1 hpos
  have hle := leMag_iff_f32Value hs (show signBit fMax = false by decide)
  rw [f32Value_fMax] at hle
  by_cases h : f32Value x ≤ 11025
  · simp [clampF, hnan, hinf, hs, hzero, hle.2 h, h]
  · have hnot : leMag x fMax = false := by rw [← Bool.not_eq_true, hle]; exact h
    simp [clampF, hnan, hinf, hs, hzero, hnot, h]

/-- A value that is not positive is clamped to +0. -/
theorem clampF_of_nonpos {x : F32} (h : f32Value x ≤ 0) : clampF x = 0 := by
  apply clampF_of_sign_or_zero
  have hnot : ¬ (signBit x = false ∧ isZero x = false) := fun hpos => h.not_gt ((f32Value_pos_iff x).2 hpos)
  rwa [not_and_or, Bool.not_eq_false, Bool.not_eq_false] at hnot

/-- The clamped value is at most FMAX. -/
theorem f32Value_clampF_le (x : F32) : f32Value (clampF x) ≤ 11025 := by
  obtain ⟨hnum, hle⟩ := clampF_legal x
  rwa [leMag_iff_f32Value hnum.1 (by decide), f32Value_fMax] at hle

/-- SETFREQ leaves a legal value in EFF, whatever is requested (R121, R174). -/
theorem effLegal_setFrequency (f : F32) (s : State) : EffLegal (setFrequency f s).eff := by
  obtain ⟨hnum, hle⟩ := clampF_legal f
  rw [setFrequency_eff]
  split
  · exact effLegal_noteFrequency (noteOf_range hnum hle)
  · exact effLegal_of_clamped hnum hle

/-- The largest INC has a value below 130. -/
theorem f32Value_lt_of_incLegal {x : F32} (hnum : plusZeroOrPositive x) (h : leMag x 0x4301BEBA = true) : f32Value x < 130 := by
  have h130 : magUnits 0x43020000 = 130 * 2 ^ 149 := by decide +kernel
  have hval : f32Value 0x43020000 = 130 := by
    rw [f32Value_eq_units _ (by decide), h130]; norm_num
  rw [← hval, f32_lt_iff hnum.1 (by decide), h130]
  exact magUnits_lt_of_incLegal h

/-- Settles O14: the clamp case by case, and its bounds by `effLegal_setFrequency` and `incr_legal`. -/
theorem frequencyClamp : Obligations.FrequencyClamp := by
  unfold Obligations.FrequencyClamp
  refine ⟨f32Value_fMax, fun x => ⟨clampF_of_isNaN, fun _ hs => clampF_of_sign_or_zero (.inl hs), clampF_of_plus_inf,
    fun _ => clampF_of_nonpos, fun hf h => ?_, fun hf hpos h => ?_, (clampF_legal x).1.1, (clampF_legal x).1.2,
    f32Value_clampF_le x⟩, fun d s t h => ?_⟩
  · have hpos : 0 < f32Value x := by linarith
    rw [clampF_of_finite_pos hf hpos, if_neg h.not_ge]
  · rw [clampF_of_finite_pos hf hpos, if_pos h]
  · rw [exec_setfreq] at h
    cases h
    have heff := effLegal_setFrequency d s
    have hinc := incr_legal heff
    rw [← setFrequency_inc] at hinc
    exact ⟨(leMag_iff_f32Value heff.1.1 (by decide)).1 heff.2, (leMag_iff_f32Value hinc.1.1 (by decide)).1 hinc.2,
      f32Value_lt_of_incLegal hinc.1 hinc.2⟩

/-! ### The increment (R123) -/

/-- The increment is the exact quotient rounded once. -/
theorem isRN32_incr {e : F32} (he : signBit e = false) : IsRN32 ((f32Value e : ℝ) * 256 / 22050) (incr e) := by
  have hround := isRN32_rn32 (magUnits e * 256) 22050 (by norm_num)
  have hquot : ((magUnits e * 256 : ℕ) : ℝ) / (22050 : ℕ) / 2 ^ 149 = (f32Value e : ℝ) * 256 / 22050 := by
    rw [f32Value_eq_units e he]
    push_cast
    ring
  rwa [hquot] at hround

/-- A legal EFF is a number of at most 24 bits, counted in units of a power of two far below the largest finite value. -/
theorem magUnits_eq_mul_pow_of_effLegal {e : F32} (he : EffLegal e) : ∃ c k, c < 2 ^ 24 ∧ k ≤ 244 ∧ magUnits e = c * 2 ^ k := by
  have hmax : (0x462E9D37 : F32).toNat < 245 * 2 ^ 23 := by decide
  have hle := (magUnits_le_iff he.1.1 (by decide)).1 ((leMag_iff _ _).1 he.2)
  have hfrac := fracField_lt e
  by_cases hexp : expField e = 0
  · exact ⟨fracField e, 0, by omega, by omega, by simp [magUnits, hexp]⟩
  · refine ⟨2 ^ 23 + fracField e, expField e - 1, by omega, ?_, by simp [magUnits, hexp]⟩
    rw [expField_eq]
    omega

/-- The product of a legal EFF with the length of a table is a binary32 value. -/
theorem exists_f32Value_mul_256 {e : F32} (he : EffLegal e) : ∃ m, plusZeroOrPositive m ∧ f32Value m = f32Value e * 256 := by
  obtain ⟨c, k, hc, hk, hunits⟩ := magUnits_eq_mul_pow_of_effLegal he
  have hprod : magUnits e * 256 = c * 2 ^ (k + 8) := by rw [hunits, pow_add]; ring
  have hlt : c * 2 ^ (k + 8) < 2 ^ (k + 8 + 24) := by
    rw [pow_add 2 (k + 8), mul_comm]
    exact Nat.mul_lt_mul_of_pos_left hc (by positivity)
  obtain ⟨m, -, hplus, hmag⟩ := exactF32_of_dvd (Dvd.intro_left c rfl) hlt (by omega)
  refine ⟨m, hplus, ?_⟩
  rw [f32Value_eq_units m hplus.1, f32Value_eq_units e he.1.1, hmag, ← hprod]
  push_cast
  ring

/-- Settles O15: `isRN32_incr` and `exists_f32Value_mul_256`. -/
theorem incrementIsRoundedOnce : Obligations.IncrementIsRoundedOnce := by
  unfold Obligations.IncrementIsRoundedOnce
  exact ⟨by decide +kernel, fun e hnum hle => ⟨isRN32_incr hnum.1, exists_f32Value_mul_256 ⟨hnum, hle⟩⟩⟩

/-! ### The writes (R120 to R126) -/

/-- SETWAVE selects the waveform of the code in the two low bits of the data (R97). -/
theorem exec_setwave_of_code {d : Word} {c : BitVec 2} (h : d.extractLsb' 0 2 = c) (s : State) :
    exec (.setwave d) s = .next { s with sel := waveformOf c } := by
  rw [exec_setwave, waveOperand, h]

/-- Settles O12: `exec_setwave_of_code` for each of the four codes. -/
theorem setwaveResult : Obligations.SetwaveResult := by
  unfold Obligations.SetwaveResult
  intro d s
  exact ⟨fun h => exec_setwave_of_code h s, fun h => exec_setwave_of_code h s, fun h => exec_setwave_of_code h s,
    fun h => exec_setwave_of_code h s⟩

/-- SETFREQ quantizes where QEN is set and the clamped frequency is at least 1.0 (R121, R170). -/
theorem quantizes_iff (qen : Bool) (f : F32) : quantizes qen f = true ↔ qen = true ∧ leMag oneHz f = true := by
  simp [quantizes]

/-- SETFREQ with quantization (R121). -/
theorem setFrequency_of_quantizes {f : F32} {s : State} (h : quantizes s.qen (clampF f) = true) :
    setFrequency f s = { s with
      tgt := clampF f
      eff := noteFrequency (noteOf (clampF f))
      inc := incr (noteFrequency (noteOf (clampF f)))
      note := noteBits (noteOf (clampF f))
      nv := true } :=
  if_pos h

/-- SETFREQ without quantization (R121). -/
theorem setFrequency_of_not_quantizes {f : F32} {s : State} (h : ¬ quantizes s.qen (clampF f) = true) :
    setFrequency f s = { s with tgt := clampF f, eff := clampF f, inc := incr (clampF f), note := 0, nv := false } :=
  if_neg h

/-- Settles O13: SETFREQ with and without quantization. -/
theorem setfreqResult : Obligations.SetfreqResult := by
  unfold Obligations.SetfreqResult
  intro d s
  rw [← quantizes_iff, exec_setfreq]
  exact ⟨fun h => congrArg _ (setFrequency_of_quantizes h), fun h => congrArg _ (setFrequency_of_not_quantizes h)⟩

/-- Settles O16: `clampVolume_toNat`. -/
theorem setvolSaturates : Obligations.SetvolSaturates := by
  unfold Obligations.SetvolSaturates
  exact fun d s => ⟨clampVolume d.toInt, clampVolume_toNat _, exec_setvol d s⟩

/-- Settles O17: `exec_setquant`. -/
theorem setquantResult : Obligations.SetquantResult := by
  unfold Obligations.SetquantResult
  exact exec_setquant

/-- Settles O18: `exec_wrign47` and `exec_wrign8F`. -/
theorem ignoredWritesChangeNothing : Obligations.IgnoredWritesChangeNothing := by
  unfold Obligations.IgnoredWritesChangeNothing
  exact fun a d s => ⟨exec_wrign47 a d s, exec_wrign8F a d s⟩

/-! ### The reads (R130 to R138) -/

/-- The code of a waveform, zero-extended, is at most 3 (R97). -/
theorem waveWord_toNat_le (w : Waveform) : (waveWord w).toNat ≤ 3 := by
  cases w <;> decide

/-- An 8-bit element keeps its value in a word. -/
theorem byteWord_toNat (b : Byte) : (byteWord b).toNat = b.toNat := by
  rw [byteWord, BitVec.toNat_setWidth]
  omega

/-- A flag is 0 or 1 in a word. -/
theorem flagWord_toNat (b : Bool) : (flagWord b).toNat = b.toNat := by
  cases b <;> rfl

/-- Settles O19: the reads of 0x0, 0x2 and 0x3 by `exec_decodeRead`, and the words they answer as numbers. -/
theorem readsOfConfiguration : Obligations.ReadsOfConfiguration := by
  unfold Obligations.ReadsOfConfiguration
  intro x s
  have hvol := byteWord_toNat s.vol
  have hcode (w : Waveform) (h : s.sel = w) : waveWord s.sel = waveWord w := congrArg waveWord h
  exact ⟨waveWord s.sel, byteWord s.vol, flagWord s.qen, exec_decodeRead 0 x s, waveWord_toNat_le s.sel, hcode .sine, hcode .square,
    hcode .sawtooth, hcode .triangle, exec_decodeRead 2 x s, hvol, by omega, exec_decodeRead 3 x s, flagWord_toNat s.qen⟩

/-- Settles O20: the reads of 0x1, 0x4 and 0x5 by `exec_decodeRead`; the target of the invariants is finite and without sign. -/
theorem readsOfFrequencies : Obligations.ReadsOfFrequencies := by
  unfold Obligations.ReadsOfFrequencies
  refine ⟨fun x s => ⟨exec_decodeRead 1 x s, exec_decodeRead 4 x s, exec_decodeRead 5 x s⟩, fun x s hs => ?_⟩
  obtain ⟨hsign, hfin⟩ := hs.target_number
  obtain ⟨hnan, hinf⟩ := not_isNaN_isInf_of_finite hfin
  refine ⟨_, exec_decodeRead 1 x s, hnan, hinf, fun hzero => ?_⟩
  have hminus : signBit 0x80000000 = true := by decide
  rw [← hzero] at hminus
  exact Bool.false_ne_true (hsign.symm.trans hminus)

/-- The bits of the word of RDNOTE: NOTE, NV, and zeros (R103). -/
theorem noteWord_getLsbD (nv : Bool) (note : Byte) (i : ℕ) :
    (noteWord nv note).getLsbD i = if i < 8 then note.getLsbD i else decide (i = 8) && nv := by
  have happ : (noteWord nv note).getLsbD i = if i < 8 then note.getLsbD i else ((0 : BitVec 23) ++ BitVec.ofBool nv).getLsbD (i - 8) :=
    BitVec.getLsbD_append
  rw [happ, BitVec.getLsbD_append]
  by_cases hlow : i < 8
  · rw [if_pos hlow, if_pos hlow]
  · rw [if_neg hlow, if_neg hlow]
    by_cases hflag : i = 8
    · subst hflag; simp
    · have hhigh : ¬ i - 8 < 1 := by omega
      simp [hflag, hhigh]

/-- The fields of the word of RDNOTE (R103). -/
theorem noteWord_fields (nv : Bool) (note : Byte) :
    (noteWord nv note).extractLsb' 0 8 = note ∧ (noteWord nv note).getLsbD 8 = nv ∧ (noteWord nv note).extractLsb' 9 23 = 0 := by
  refine ⟨?_, ?_, ?_⟩
  · ext i hi
    simp [BitVec.getElem_extractLsb', noteWord_getLsbD, hi]
  · rw [noteWord_getLsbD]; rfl
  · ext i hi
    have hlow : ¬ 9 + i < 8 := by omega
    have hflag : 9 + i ≠ 8 := by omega
    simp [BitVec.getElem_extractLsb', noteWord_getLsbD, hlow, hflag]

/-- Settles O21: `noteWord_fields`, and without NV the note of the invariants is 0. -/
theorem readOfNote : Obligations.ReadOfNote := by
  unfold Obligations.ReadOfNote
  intro x s
  obtain ⟨hnote, hnv, hrest⟩ := noteWord_fields s.nv s.note
  have hsigned : (((noteWord s.nv s.note).extractLsb' 0 8).signExtend 32).toInt = s.note.toInt := by
    rw [hnote]
    exact BitVec.toInt_signExtend_of_le (by norm_num)
  refine ⟨_, exec_decodeRead 6 x s, rfl, hnote, hnv, hrest, hsigned, fun hs hunset => ?_⟩
  obtain ⟨-, hzero⟩ := hs.unquantized hunset
  change noteWord s.nv s.note = 0
  rw [hunset, hzero]
  rfl

/-- A cycle with a read and a TICK: the read answers the state before the TICK (R93). -/
theorem step_decodeRead_tick {a : Addr} {x : Word} {s : State} {rest : List Pins}
    (h : s.inputs = { Pins.ofOpWord (encode (decodeRead a x)) with tick := true } :: rest) :
    step s = .next (mergeTick (answerRead (readRegister a s) s.beginCycle) (emitSample s.beginCycle)) := by
  have hpins : s.pins = { Pins.ofOpWord (.bus (busWordOf false a x)) with tick := true } := by
    rw [State.pins, h, encode_decodeRead]; rfl
  calc step s = cycle s.pins s.beginCycle := rfl
    _ = bothInCycle (exec (decodeRead a x) s.beginCycle) (exec .tick s.beginCycle) := by
      rw [hpins, cycle_ofOpWord_tick, decodeBus_busWordOf]; rfl
    _ = _ := by rw [exec_decodeRead, exec_tick, bothInCycle_next]; rfl

/-- Settles O22: `exec_decodeRead` and `step_decodeRead_tick` for 0x7. -/
theorem readOfOutput : Obligations.ReadOfOutput := by
  unfold Obligations.ReadOfOutput
  refine ⟨fun x s => exec_decodeRead 7 x s, fun x s rest h => ?_⟩
  exact ⟨_, _, step_decodeRead_tick (a := 7) h, rfl, exec_tick _, rfl, rfl⟩

/-- RDRSV reads 0, its address operand in the row's range or not (R138, log entry 9). -/
theorem exec_rdrsv (a : Addr) (x : Word) (s : State) : exec (.rdrsv a x) s = .next (answerRead 0 s) := rfl

/-- Settles O23: `exec_rdrsv`. -/
theorem reservedReadsReturnZero : Obligations.ReservedReadsReturnZero := by
  unfold Obligations.ReservedReadsReturnZero
  exact exec_rdrsv

end Sys2Proof.Machine

/-! PROOFS. TICK (R150 to R158): the scale step, one TICK in numbers, and the phase after many TICKs of an increment that needs no
rounding. -/

namespace Sys2Proof.Machine

/-! ### The scale step (R155) -/

/-- Volume 0 is silent. -/
theorem scale_zero_right (s : Byte) : scale s 0 = 0 :=
  BitVec.eq_of_toNat_eq (by simp [scale_toNat])

/-- Sample 0 is silent. -/
theorem scale_zero_left (v : Byte) : scale 0 v = 0 :=
  BitVec.eq_of_toNat_eq (by simp [scale_toNat])

/-- The scale step is non-decreasing in both factors. -/
theorem scale_mono {s r v w : Byte} (hs : s.toNat ≤ r.toNat) (hv : v.toNat ≤ w.toNat) : (scale s v).toNat ≤ (scale r w).toNat := by
  rw [scale_toNat, scale_toNat]
  exact Nat.div_le_div_right (Nat.mul_le_mul hs hv)

/-- Settles O30: the scale step as a quotient, its bound, its zeros and `scale_mono`. -/
theorem scaleStep : Obligations.ScaleStep := by
  unfold Obligations.ScaleStep
  exact ⟨fun s v => ⟨scale_toNat s v, scale_le s v, scale_zero_right s, scale_zero_left v⟩, fun _ _ _ hv => scale_mono le_rfl hv,
    fun _ _ _ hs => scale_mono hs le_rfl, by decide, by decide, by decide, by decide⟩

/-! ### One TICK -/

/-- Whatever state it starts from, a TICK never lowers the counter of free values. -/
theorem freeCtr_le_emitSample (s : State) : s.freeCtr ≤ (emitSample s).freeCtr := by
  rw [emitSample_freeCtr]
  split <;> omega

/-- Settles O29: a TICK answers `emitSample`, whose output is the scale step of some sample, stated or free. -/
theorem tickAlwaysCompletes : Obligations.TickAlwaysCompletes := by
  unfold Obligations.TickAlwaysCompletes
  refine fun s => ⟨emitSample s, exec_tick s, rfl, scale_le _ _, fun hvol => ?_, freeCtr_le_emitSample s⟩
  rw [emitSample_out, hvol, scale_zero_right]

/-- The phase a TICK leaves, in units: the rounded sum, less 256 where that has reached it (R151, R152). -/
theorem nextPhase_units {phase inc : F32} (hp : BelowTable phase) (hi : BelowTable inc) :
    ∃ p, nextPhase phase inc = some p ∧ BelowTable p ∧
      magUnits p =
        if magUnits (rn32 (magUnits phase + magUnits inc) 1) < 256 * unitsPerOne then
          magUnits (rn32 (magUnits phase + magUnits inc) 1)
        else magUnits (rn32 (magUnits phase + magUnits inc) 1) - 256 * unitsPerOne := by
  obtain ⟨hsum, hlt⟩ := phaseSum_of_belowTable hp hi
  obtain ⟨p, hwrap, hbelow, hunits⟩ := phaseWrap_of_lt (rn32_plus_finite _ _) hlt
  exact ⟨p, by rw [nextPhase, hsum, Option.bind_some, hwrap], hbelow, hunits⟩

/-- A TICK with a stated phase below 256: the sample at its floor, scaled; no free value is used (R153 to R155). -/
theorem emitSample_of_nextPhase {s : State} {p : F32} (h : nextPhase s.phase s.inc = some p) (hp : BelowTable p) :
    emitSample s = { s with phase := p, out := scale (waveRom s.sel (BitVec.ofNat 8 (floorF32 p))) s.vol } := by
  simp [emitSample, h, lookup_of_belowTable s.sel hp]

/-- Settles O27: both TICKs have the same stated phase, hence the same sample of the same table at the same volume. -/
theorem tickReadsFourElements : Obligations.TickReadsFourElements := by
  unfold Obligations.TickReadsFourElements
  intro s u hphase hphaselt hinc hinclt huphase huinc husel huvol
  obtain ⟨p, hs, hp⟩ := nextPhase_of_belowTable ⟨hphase, hphaselt⟩ ⟨hinc, hinclt⟩
  have hu : nextPhase u.phase u.inc = some p := by rw [huphase, huinc, hs]
  refine ⟨_, _, exec_tick s, exec_tick u, ?_, ?_⟩
  · rw [emitSample_of_nextPhase hs hp, emitSample_of_nextPhase hu hp]
  · rw [emitSample_of_nextPhase hs hp, emitSample_of_nextPhase hu hp, husel, huvol]

/-! ### One TICK in numbers -/

/-- Without a sign, a value below 256 is below 256 in units. -/
theorem f32Value_lt_256_iff {x : F32} (hx : signBit x = false) : f32Value x < 256 ↔ magUnits x < 256 * unitsPerOne := by
  rw [f32Value_eq_units x hx, div_lt_iff₀ (by positivity), unitsPerOne]
  exact_mod_cast Iff.rfl

/-- Numbers without sign and with a value below 256 are the phases of R30's table. -/
theorem belowTable_of_f32Value {x : F32} (hx : plusZeroOrPositive x) (h : f32Value x < 256) : BelowTable x :=
  ⟨hx, (f32Value_lt_256_iff hx.1).1 h⟩

/-- The sum of two magnitudes rounded once is the RN32 of the sum of the values (R151). -/
theorem isRN32_sum {x y : F32} (hx : signBit x = false) (hy : signBit y = false) :
    IsRN32 ((f32Value x : ℝ) + f32Value y) (rn32 (magUnits x + magUnits y) 1) := by
  have hround := isRN32_rn32 (magUnits x + magUnits y) 1 one_pos
  have hsum : ((magUnits x + magUnits y : ℕ) : ℝ) / (1 : ℕ) / 2 ^ 149 = (f32Value x : ℝ) + f32Value y := by
    rw [f32Value_eq_units x hx, f32Value_eq_units y hy]
    push_cast
    ring
  rwa [hsum] at hround

/-- A magnitude less 256 has the value less 256. -/
theorem f32Value_sub_256 {x p : F32} (hx : signBit x = false) (hp : signBit p = false) (hle : 256 * unitsPerOne ≤ magUnits x)
    (h : magUnits p = magUnits x - 256 * unitsPerOne) : f32Value p = f32Value x - 256 := by
  rw [f32Value_eq_units p hp, f32Value_eq_units x hx, h, Nat.cast_sub hle, unitsPerOne]
  push_cast
  ring

/-- The machine's floor is that of the value (R153). -/
theorem floor_f32Value {x : F32} (hx : signBit x = false) : ⌊f32Value x⌋ = (floorF32 x : ℤ) := by
  rw [f32Value_eq_units x hx, floorF32, unitsPerOne]
  exact_mod_cast Rat.floor_natCast_div_natCast (magUnits x) (2 ^ 149)

/-- The index of a phase below 256 is its floor (R153). -/
theorem index_toNat {p : F32} (hp : BelowTable p) : ((BitVec.ofNat 8 (floorF32 p) : Byte).toNat : ℤ) = ⌊f32Value p⌋ := by
  have hfloor : floorF32 p < 256 := (Nat.div_lt_iff_lt_mul (by decide)).2 hp.2
  rw [floor_f32Value hp.1.1, BitVec.toNat_ofNat]
  omega

/-- Settles O28: the rounded sum by `isRN32_sum`, the wrap by `nextPhase_units`, and the state by `emitSample_of_nextPhase`. -/
theorem tickResult : Obligations.TickResult := by
  unfold Obligations.TickResult
  intro s hphase hphaselt hinc hinclt
  obtain ⟨p, hnext, hp, hunits⟩ :=
    nextPhase_units (belowTable_of_f32Value hphase hphaselt) (belowTable_of_f32Value hinc hinclt)
  have hsum := isRN32_sum hphase.1 hinc.1
  generalize rn32 (magUnits s.phase + magUnits s.inc) 1 = sum at hsum hunits
  have hlt := f32Value_lt_256_iff hsum.1
  refine ⟨sum, p, _, _, hsum, fun h => ?_, fun h => ?_, hp.1, (f32Value_lt_256_iff hp.1.1).2 hp.2, index_toNat hp,
    scale_toNat _ _, by rw [exec_tick, emitSample_of_nextPhase hnext hp]⟩
  · rw [if_pos (hlt.1 h)] at hunits
    exact magUnits_inj hp.1.1 hsum.1 hunits
  · have hge := mt hlt.2 h.not_gt
    rw [if_neg hge] at hunits
    exact f32Value_sub_256 hsum.1 hp.1.1 (not_lt.1 hge) hunits

/-! ### Increments that need no rounding (R157) -/

/-- The number `a / 2^15`: `a` times `2^134` units. -/
def IsDyadic (x : F32) (a : ℕ) : Prop := plusZeroOrPositive x ∧ magUnits x = a * 2 ^ 134

/-- The value of `a / 2^15`. -/
theorem IsDyadic.f32Value_eq {x : F32} {a : ℕ} (h : IsDyadic x a) : f32Value x = (a : ℚ) / 2 ^ 15 := by
  rw [f32Value_eq_units x h.1.1, h.2]
  push_cast
  ring

/-- A number without sign and with the value `a / 2^15`. -/
theorem isDyadic_of_f32Value {x : F32} {a : ℕ} (hx : plusZeroOrPositive x) (h : f32Value x = (a : ℚ) / 2 ^ 15) : IsDyadic x a := by
  refine ⟨hx, ?_⟩
  rw [f32Value_eq_units x hx.1, div_eq_div_iff (by positivity) (by positivity)] at h
  have hprod : magUnits x * 2 ^ 15 = a * 2 ^ 149 := by exact_mod_cast h
  omega

/-- 256 is `2^23 / 2^15`. -/
theorem IsDyadic.belowTable_iff {x : F32} {a : ℕ} (h : IsDyadic x a) : BelowTable x ↔ a < 2 ^ 23 := by
  rw [BelowTable, and_iff_right h.1, h.2, unitsPerOne]
  omega

/-- A magnitude of at most 24 bits, counted in units of 2^-15, is not rounded. -/
theorem rn32_of_dyadic {a : ℕ} (h : a < 2 ^ 24) : magUnits (rn32 (a * 2 ^ 134) 1) = a * 2 ^ 134 := by
  obtain ⟨p, -, hplus, hmag⟩ := exactF32_of_dvd (u := a * 2 ^ 134) (k := 134) (Dvd.intro_left a rfl) (by omega) (by norm_num)
  rw [← hmag, rn32_exact p hplus.1 hplus.2]

/-- One TICK from `a / 2^15` with the increment `m / 2^15`, both below 256: the exact sum modulo 256. -/
theorem isDyadic_emitSample {s : State} {a m : ℕ} (ha : a < 2 ^ 23) (hm : m < 2 ^ 23) (hphase : IsDyadic s.phase a)
    (hinc : IsDyadic s.inc m) : IsDyadic (emitSample s).phase ((a + m) % 2 ^ 23) := by
  obtain ⟨p, hnext, hp, hunits⟩ := nextPhase_units (hphase.belowTable_iff.2 ha) (hinc.belowTable_iff.2 hm)
  rw [hphase.2, hinc.2, ← add_mul, rn32_of_dyadic (by omega), unitsPerOne] at hunits
  rw [emitSample_of_nextPhase hnext hp]
  refine ⟨hp.1, hunits.trans ?_⟩
  split <;> omega

/-- TICKs do not write INC. -/
theorem iterate_emitSample_inc (k : ℕ) (s : State) : (emitSample^[k] s).inc = s.inc := by
  induction k with
  | zero => rfl
  | succ k ih => rw [Function.iterate_succ_apply', emitSample_inc, ih]

/-- The phase after `k` TICKs from 0: the increment taken `k` times, modulo 256. -/
theorem isDyadic_iterate_emitSample {s : State} {m : ℕ} (hphase : IsDyadic s.phase 0) (hinc : IsDyadic s.inc m) (hm : m < 2 ^ 23)
    (k : ℕ) : IsDyadic (emitSample^[k] s).phase (k * m % 2 ^ 23) := by
  induction k with
  | zero => simpa using hphase
  | succ k ih =>
    have hnext := isDyadic_emitSample (Nat.mod_lt _ (by positivity)) hm ih ((iterate_emitSample_inc k s).symm ▸ hinc)
    rwa [Nat.mod_add_mod, ← Nat.succ_mul, ← Function.iterate_succ_apply' emitSample] at hnext

/-- Settles O33: `isDyadic_iterate_emitSample`, by induction on the number of TICKs. -/
theorem phaseIsExactForDyadicIncrements : Obligations.PhaseIsExactForDyadicIncrements := by
  unfold Obligations.PhaseIsExactForDyadicIncrements
  intro k m s hphase hnum hinc hlt
  have hzero : IsDyadic s.phase 0 := by rw [hphase]; exact ⟨by decide, by decide⟩
  have hdyadic := isDyadic_of_f32Value hnum hinc
  have hm := hdyadic.belowTable_iff.1 (belowTable_of_f32Value hnum hlt)
  exact (isDyadic_iterate_emitSample hzero hdyadic hm k).f32Value_eq

end Sys2Proof.Machine

/-! PROOFS. The quantizer (R170 to R178): column F, the row and the note number of a frequency, the fixed points of SETFREQ, and the
names of notes. -/

namespace Sys2Proof.Machine

/-- A note of the ROM and its row, counted from 0 (R67). -/
theorem exists_row {n : ℤ} (hlo : -36 ≤ n) (hhi : n ≤ 125) :
    ∃ j : ℕ, j < 162 ∧ n = (j : ℤ) - 36 ∧ noteFrequency n = romF j ∧ noteThreshold n = romT j :=
  ⟨(n + 36).toNat, by omega, by omega, noteFrequency_eq n, noteThreshold_eq n⟩

/-! ### Column F (R173) -/

/-- The frequency of note `n`, a real number (R173). -/
noncomputable def noteHz (n : ℤ) : ℝ := 440 * (2 : ℝ) ^ (((n : ℝ) - 69) / 12)

/-- The frequency of a row by its twelfth power, which is rational. -/
theorem noteHz_pow (j : ℕ) : noteHz (j - 36) ^ 12 * 2 ^ 105 = 440 ^ 12 * 2 ^ j := by
  have hexp : ((((j : ℤ) - 36 : ℤ) : ℝ) - 69) / 12 * (12 : ℕ) = j - (105 : ℕ) := by push_cast; ring
  rw [noteHz, mul_pow, ← Real.rpow_mul_natCast two_pos.le, hexp, Real.rpow_sub two_pos, Real.rpow_natCast, Real.rpow_natCast]
  field_simp

/-- Two numbers compare as a multiple of their powers does. -/
theorem lt_of_pow_mul_lt_pow_mul {a b c : ℝ} (k : ℕ) (hb : 0 ≤ b) (hc : 0 ≤ c) (h : a ^ k * c < b ^ k * c) : a < b :=
  lt_of_pow_lt_pow_left₀ k hb (lt_of_mul_lt_mul_right h hc)

/-- A frequency given by its twelfth power lies between the midpoints from the entry of its row to the neighbouring patterns. -/
theorem romF_between (j : ℕ) (hj : j < 162) (r : ℝ) (hr0 : 0 < r) (hr : r ^ 12 * 2 ^ 105 = 440 ^ 12 * 2 ^ j) :
    (magUnits (romF j) + magUnits (romF j - 1) : ℝ) < 2 * (r * 2 ^ 149) ∧
    2 * (r * 2 ^ 149) < (magUnits (romF j) + magUnits (romF j + 1) : ℝ) := by
  obtain ⟨hlo, hhi⟩ := rom_F12 j hj
  have hpow : (2 * (r * 2 ^ 149)) ^ 12 * 2 ^ 105 = ((2 * 440 * 2 ^ 149) ^ 12 * 2 ^ j : ℝ) := by
    linear_combination (2 * 2 ^ 149) ^ 12 * hr
  constructor
  · apply lt_of_pow_mul_lt_pow_mul (c := 2 ^ 105) 12 (by positivity) (by positivity)
    rw [hpow]
    exact_mod_cast hlo
  · apply lt_of_pow_mul_lt_pow_mul (c := 2 ^ 105) 12 (by positivity) (by positivity)
    rw [hpow]
    exact_mod_cast hhi

/-- The thresholds rise from row to row (R172). -/
theorem romT_lt_romT {i j : ℕ} (hij : i < j) (hj : j < 162) : (romT i).toNat < (romT j).toNat := by
  induction j, hij using Nat.le_induction with
  | base =>
    obtain ⟨hbelow, hown⟩ := rom_order i (by omega)
    exact hbelow.trans_le hown
  | succ j _ ih =>
    obtain ⟨hbelow, hown⟩ := rom_order j (by omega)
    exact (ih (by omega)).trans (hbelow.trans_le hown)

/-- Every note lies above the threshold of every lower row, and not above its own (R176). -/
theorem romF_in_row {j : ℕ} (hj : j < 162) :
    (romF j).toNat ≤ (romT j).toNat ∧ ∀ i < j, (romT i).toNat < (romF j).toNat := by
  cases j with
  | zero => exact ⟨rom_first.2, by simp⟩
  | succ k =>
    obtain ⟨hbelow, hown⟩ := rom_order k (by omega)
    refine ⟨hown, fun i hi => ?_⟩
    rcases Nat.lt_succ_iff_lt_or_eq.1 hi with hik | rfl
    · exact (romT_lt_romT hik (by omega)).trans hbelow
    · exact hbelow

/-- No frequency of the ROM lies below 1.0 (R176). -/
theorem oneHz_le_romF {j : ℕ} (hj : j < 162) : oneHz.toNat ≤ (romF j).toNat := by
  obtain ⟨hone, hfirst⟩ := rom_first
  cases j with
  | zero => exact hone
  | succ k =>
    have habove := (romF_in_row hj).2 0 k.succ_pos
    exact (hone.trans hfirst).trans habove.le

/-- Settles O35: every row by `romF_between`; the two examples are evaluated. -/
theorem noteFrequencyIsRoundedOnce : Obligations.NoteFrequencyIsRoundedOnce := by
  unfold Obligations.NoteFrequencyIsRoundedOnce
  refine ⟨fun n hlo hhi => ?_, ?_, by decide +kernel⟩
  · obtain ⟨j, hj, rfl, hF, -⟩ := exists_row hlo hhi
    have hpos : 0 < noteHz (j - 36) := by unfold noteHz; positivity
    have hone : oneHz.toNat = 0x3F800000 := rfl
    have hge := oneHz_le_romF hj
    obtain ⟨hbelow, habove⟩ := romF_between j hj _ hpos (noteHz_pow j)
    rw [hF]
    exact isRN32_of_between _ _ (rom_finite j hj).1 (by omega) hbelow habove
  · have hunits : magUnits (noteFrequency 69) = 440 * 2 ^ 149 := by decide +kernel
    rw [f32Value_eq_units _ (by decide +kernel), hunits]
    norm_num

/-! ### The row of a frequency (R172, R174) -/

/-- The row of a frequency is the only one that it belongs to. -/
theorem noteOf_eq_of_row {f : F32} (hs : signBit f = false) {j : ℕ} (hj : j < 162) (hle : f.toNat ≤ (romT j).toNat)
    (hlower : ∀ i < j, (romT i).toNat < f.toNat) : noteOf f = (j : ℤ) - 36 := by
  have hlast : (romT j).toNat ≤ (romT 161).toNat := by
    rcases Nat.lt_or_eq_of_le (Nat.le_of_lt_succ hj) with h | rfl
    · exact (romT_lt_romT h (by omega)).le
    · exact le_rfl
  obtain ⟨k, -, hnote, hkle, hklower⟩ := noteOf_spec f hs (hle.trans hlast)
  rcases Nat.lt_trichotomy j k with hjk | rfl | hkj
  · exact absurd (hklower j hjk) hle.not_gt
  · exact hnote
  · exact absurd (hlower k hkj) hkle.not_gt

/-- Pattern numbers below infinity compare as their values. -/
theorem f32Value_lt_iff_toNat {x y : F32} (hx : signBit x = false) (hy : signBit y = false) :
    f32Value x < f32Value y ↔ x.toNat < y.toNat := by
  rw [f32_lt_iff hx hy, magUnits_lt_iff hx hy]

/-- A threshold of the ROM has no sign. -/
theorem signBit_romT {j : ℕ} (hj : j < 162) : signBit (romT j) = false :=
  ((plus_finite_iff _).2 (rom_finite j hj).2).1

/-- The thresholds rise from note to note. -/
theorem noteThreshold_lt {m n : ℤ} (hm : -36 ≤ m) (hmn : m < n) (hn : n ≤ 125) :
    f32Value (noteThreshold m) < f32Value (noteThreshold n) := by
  obtain ⟨i, hi, rfl, -, hTi⟩ := exists_row hm (by omega)
  obtain ⟨j, hj, rfl, -, hTj⟩ := exists_row (by omega : -36 ≤ n) hn
  rw [hTi, hTj, f32Value_lt_iff_toNat (signBit_romT hi) (signBit_romT hj)]
  exact romT_lt_romT (by omega) hj

/-- A number up to FMAX lies in the row of its note: not above its threshold, and above every lower one (R172, R174). -/
theorem noteOf_row {f : F32} (hs : signBit f = false) (hle : f32Value f ≤ 11025) :
    -36 ≤ noteOf f ∧ noteOf f ≤ 125 ∧ f32Value f ≤ f32Value (noteThreshold (noteOf f)) ∧
    ∀ m : ℤ, -36 ≤ m → m < noteOf f → f32Value (noteThreshold m) < f32Value f := by
  have hmax : f.toNat ≤ fMax.toNat := by
    rwa [← f32Value_fMax, f32_le_iff hs (by decide), magUnits_le_iff hs (by decide)] at hle
  obtain ⟨j, hj, hnote, hown, hlower⟩ := noteOf_spec f hs (hmax.trans rom_last)
  obtain ⟨k, hk, hkn, -, hT⟩ := exists_row (by omega : -36 ≤ noteOf f) (by omega)
  obtain rfl : j = k := by omega
  refine ⟨by omega, by omega, ?_, fun m hm hlt => ?_⟩
  · rwa [hT, f32_le_iff hs (signBit_romT hj), magUnits_le_iff hs (signBit_romT hj)]
  · obtain ⟨i, hi, rfl, -, hTi⟩ := exists_row hm (by omega)
    rw [hTi, f32Value_lt_iff_toNat (signBit_romT hi) hs]
    exact hlower i (by omega)

/-- Settles O38: `noteOf_row` and `noteThreshold_lt`; the notes of 1.0 and FMAX are evaluated. -/
theorem noteIsTheLeastRow : Obligations.NoteIsTheLeastRow := by
  unfold Obligations.NoteIsTheLeastRow
  exact ⟨fun f hnum _ hle => noteOf_row hnum.1 hle, fun m n => noteThreshold_lt, by decide +kernel, by decide +kernel⟩

/-! ### The nearest note on the logarithmic scale (R171, R175) -/

/-- A boundary is positive. -/
theorem noteBoundary_pos (n : ℤ) : 0 < noteBoundary n := by unfold noteBoundary; positivity

/-- A number above the threshold of a note lies above its boundary, never on it (R175). -/
theorem noteBoundary_lt_of_noteThreshold_lt {n : ℤ} (hlo : -36 ≤ n) (hhi : n ≤ 125) {y : F32} (hy : signBit y = false)
    (h : f32Value (noteThreshold n) < f32Value y) : noteBoundary n < f32Value y := by
  obtain ⟨j, hj, rfl, -, hT⟩ := exists_row hlo hhi
  have hfin := (rom_finite j hj).2
  have hnext : (romT j + 1).toNat = (romT j).toNat + 1 := by bv_omega
  have hns : signBit (romT j + 1) = false := by rw [signBit_false_iff]; omega
  rw [hT, f32Value_lt_iff_toNat (signBit_romT hj) hy, ← Nat.succ_le_iff, Nat.succ_eq_add_one, ← hnext, ← magUnits_le_iff hns hy] at h
  rw [f32Value_eq_units y hy]
  push_cast
  rw [lt_div_iff₀ (by positivity)]
  exact (threshold_between j hj _ (noteBoundary_pos _) (noteBoundary_pow j)).2.trans_le (by exact_mod_cast h)

/-- The lower boundary of the first note lies below 1.0 (R174). -/
theorem noteBoundary_below_first : noteBoundary (-37) < 1 := by
  have hpow : noteBoundary (-37) ^ 24 * 2 ^ 211 = 440 ^ 24 := by
    have hexp : (((-37 : ℤ) : ℝ) - 69 + 0.5) / 12 * (24 : ℕ) = -(211 : ℕ) := by norm_num
    rw [noteBoundary, mul_pow, ← Real.rpow_mul_natCast two_pos.le, hexp, Real.rpow_neg two_pos.le, Real.rpow_natCast]
    field_simp
  apply lt_of_pow_mul_lt_pow_mul (c := 2 ^ 211) 24 zero_le_one (by positivity)
  rw [hpow]
  norm_num

/-- A number from 1.0 to FMAX lies strictly between the boundaries of its note. -/
theorem noteOf_between {f : F32} (hs : signBit f = false) (h1 : 1 ≤ f32Value f) (hle : f32Value f ≤ 11025) :
    noteBoundary (noteOf f - 1) < f32Value f ∧ (f32Value f : ℝ) < noteBoundary (noteOf f) := by
  obtain ⟨hlo, hhi, hown, hlower⟩ := noteOf_row hs hle
  refine ⟨?_, (f32Value_lt_noteBoundary_iff hlo hhi f).2 hown⟩
  rcases hlo.eq_or_lt with hfirst | hlater
  · rw [← hfirst]
    exact noteBoundary_below_first.trans_le (by exact_mod_cast h1)
  · exact noteBoundary_lt_of_noteThreshold_lt (by omega) (by omega) hs (hlower _ (by omega) (by omega))

/-- The place of a frequency on the scale of note numbers, `x(f)` of R171. -/
noncomputable def noteScale (r : ℝ) : ℝ := 69 + 12 * Real.logb 2 (r / 440)

/-- The scale rises with the frequency. -/
theorem noteScale_lt_noteScale {q r : ℝ} (hq : 0 < q) (h : q < r) : noteScale q < noteScale r := by
  have hlog : Real.logb 2 (q / 440) < Real.logb 2 (r / 440) := Real.logb_lt_logb one_lt_two (by positivity) (by gcongr)
  unfold noteScale
  linarith

/-- The boundary above note `n` stands at `n + 1/2` on the scale. -/
theorem noteScale_noteBoundary (n : ℤ) : noteScale (noteBoundary n) = n + 1 / 2 := by
  rw [noteScale, noteBoundary, mul_div_cancel_left₀ _ (by norm_num), Real.logb_rpow two_pos one_lt_two.ne']
  ring

/-- Settles O37: `noteOf_between`, whose two boundaries stand half a note away on the scale. -/
theorem noteIsTheNearestOnTheLogScale : Obligations.NoteIsTheNearestOnTheLogScale := by
  unfold Obligations.NoteIsTheNearestOnTheLogScale
  refine ⟨fun f hnum h1 hle => ?_, by decide +kernel⟩
  obtain ⟨hbelow, habove⟩ := noteOf_between hnum.1 h1 hle
  have hlo := noteScale_lt_noteScale (noteBoundary_pos _) hbelow
  have hhi := noteScale_lt_noteScale ((noteBoundary_pos _).trans hbelow) habove
  rw [noteScale_noteBoundary] at hlo hhi
  push_cast at hlo
  change |noteScale (f32Value f) - noteOf f| < 1 / 2
  rw [abs_lt]
  constructor <;> linarith

/-! ### The fixed points (R176) -/

/-- The clamp leaves a number up to FMAX. -/
theorem clampF_of_le_fMax {x : F32} (hx : plusZeroOrPositive x) (hle : leMag x fMax = true) : clampF x = x := by
  rw [leMag_iff_f32Value hx.1 (by decide), f32Value_fMax] at hle
  cases hz : isZero x with
  | true =>
    rw [clampF_of_sign_or_zero (.inr hz)]
    exact magUnits_inj (by decide) hx.1 ((isZero_iff_magUnits x).1 hz).symm
  | false => rw [clampF_of_finite_pos hx.2 ((f32Value_pos_iff x).2 ⟨hx.1, hz⟩), if_pos hle]

/-- The clamp is idempotent. -/
theorem clampF_clampF (x : F32) : clampF (clampF x) = clampF x :=
  clampF_of_le_fMax (clampF_legal x).1 (clampF_legal x).2

/-- The note of a frequency of the ROM is the note of its row (R176). -/
theorem noteOf_noteFrequency {n : ℤ} (hlo : -36 ≤ n) (hhi : n ≤ 125) : noteOf (noteFrequency n) = n := by
  obtain ⟨j, hj, rfl, hF, -⟩ := exists_row hlo hhi
  obtain ⟨hown, hlower⟩ := romF_in_row hj
  rw [hF]
  exact noteOf_eq_of_row ((plus_finite_iff _).2 (rom_finite j hj).1).1 hj hown hlower

/-- Every frequency of the ROM is quantized: it is at least 1.0 (R170). -/
theorem oneHz_le_noteFrequency {n : ℤ} (hlo : -36 ≤ n) (hhi : n ≤ 125) : leMag oneHz (noteFrequency n) = true := by
  obtain ⟨j, hj, rfl, hF, -⟩ := exists_row hlo hhi
  rw [hF, leMag_iff, magUnits_le_iff (by decide) ((plus_finite_iff _).2 (rom_finite j hj).1).1]
  exact oneHz_le_romF hj

/-- The quantizer returns the frequency of a note unchanged. -/
theorem quantize_noteFrequency {n : ℤ} (hlo : -36 ≤ n) (hhi : n ≤ 125) : quantize (noteFrequency n) = noteFrequency n := by
  rw [quantize, if_pos (oneHz_le_noteFrequency hlo hhi), noteOf_noteFrequency hlo hhi]

/-- No frequency of the ROM but the last lies above FMAX. -/
theorem romF_le_fMax : ∀ j < 161, leMag (romF j) fMax = true := by decide +kernel

/-- The clamp moves only the last frequency of the ROM, to FMAX (R176). -/
theorem clampF_noteFrequency {n : ℤ} (hlo : -36 ≤ n) (hhi : n ≤ 125) :
    clampF (noteFrequency n) = if n = 125 then fMax else noteFrequency n := by
  split
  case isTrue hlast => subst hlast; decide +kernel
  case isFalse hlast =>
    obtain ⟨j, hj, rfl, hF, -⟩ := exists_row hlo hhi
    rw [hF]
    exact clampF_of_le_fMax ((plus_finite_iff _).2 (rom_finite j hj).1) (romF_le_fMax j (by omega))

/-- The clamped frequency of a note is still at least 1.0 and belongs to the same note, the last one included (R176). -/
theorem clampF_noteFrequency_note {n : ℤ} (hlo : -36 ≤ n) (hhi : n ≤ 125) :
    leMag oneHz (clampF (noteFrequency n)) = true ∧ noteOf (clampF (noteFrequency n)) = n := by
  rw [clampF_noteFrequency hlo hhi]
  split
  case isTrue hlast => subst hlast; exact ⟨by decide +kernel, by decide +kernel⟩
  case isFalse => exact ⟨oneHz_le_noteFrequency hlo hhi, noteOf_noteFrequency hlo hhi⟩

/-- A SETFREQ of the effective frequency that SETFREQ has left keeps what was computed from the request: only TGT can change. -/
theorem setFrequency_eff_again (f : F32) (s : State) (hq : s.qen = true) :
    setFrequency (setFrequency f s).eff (setFrequency f s) =
      { setFrequency f s with tgt := clampF (setFrequency f s).eff } := by
  have heff := setFrequency_eff f s
  by_cases hquant : quantizes s.qen (clampF f) = true
  · have hnote := noteOf_range (clampF_legal f).1 (clampF_legal f).2
    obtain ⟨hone, hsame⟩ := clampF_noteFrequency_note hnote.1 hnote.2
    have hagain := (quantizes_iff (setFrequency f s).qen _).2 ⟨(setFrequency_qen f s).trans hq, hone⟩
    rw [if_pos hquant] at heff
    rw [heff, setFrequency_of_quantizes hagain, hsame, setFrequency_of_quantizes hquant]
  · have hagain : ¬ quantizes (setFrequency f s).qen (clampF (clampF f)) = true := by
      rwa [clampF_clampF, setFrequency_qen]
    rw [if_neg hquant] at heff
    rw [heff, setFrequency_of_not_quantizes hagain, clampF_clampF, setFrequency_of_not_quantizes hquant]

/-- Settles O39: `quantize_noteFrequency` and, through SETFREQ, `setFrequency_eff_again`. -/
theorem quantizedFrequencyIsAFixedPoint : Obligations.QuantizedFrequencyIsAFixedPoint := by
  unfold Obligations.QuantizedFrequencyIsAFixedPoint
  refine ⟨fun n hlo hhi => quantize_noteFrequency hlo (by omega), fun d s t hq h => ?_⟩
  rw [exec_setfreq] at h
  cases h
  exact ⟨_, (exec_setfreq _ _).trans (congrArg _ (setFrequency_eff_again d s hq)), rfl, rfl, rfl, rfl⟩

/-! ### Names (R177, R178) -/

/-- The octave by the floor of a rational quotient. -/
theorem octave_eq_floor (n : ℤ) : octave n = ⌊(n : ℚ) / 12⌋ - 1 := by
  rw [octave, Int.fdiv_eq_ediv_of_nonneg _ (by norm_num)]
  exact congrArg (· - 1) (Rat.floor_intCast_div_natCast n 12).symm

/-- The pitch class is the remainder by twelve, never negative. -/
theorem pitchClass_eq_emod (n : ℤ) : (pitchClass n : ℤ) = n % 12 := by
  rw [pitchClass, Int.fmod_eq_emod_of_nonneg _ (by norm_num)]
  omega

/-- The octave and the pitch class determine the note number. -/
theorem eq_octave_pitchClass (n : ℤ) : n = 12 * (octave n + 1) + pitchClass n := by
  rw [pitchClass_eq_emod, octave, Int.fdiv_eq_ediv_of_nonneg _ (by norm_num)]
  omega

/-- The name of a note from the name of its pitch class. -/
theorem noteName_of_pitchClass {n : ℤ} {c : ℕ} {name : String} (hc : pitchClass n = c) (hname : pitchName c = name) :
    noteName n = name ++ toString (octave n) := by
  rw [noteName, hc, hname]

/-- Settles O40: the name of each pitch class is evaluated. -/
theorem namesOfNotes : Obligations.NamesOfNotes := by
  unfold Obligations.NamesOfNotes
  refine ⟨fun n => ⟨octave_eq_floor n, ?_, eq_octave_pitchClass n⟩, fun n => ?_, by decide +kernel⟩
  · have hc := pitchClass_eq_emod n
    omega
  · have named {c : ℕ} {name : String} (hname : pitchName c = name) (hc : pitchClass n = c) := noteName_of_pitchClass hc hname
    exact ⟨named rfl, named rfl, named rfl, named rfl, named rfl, named rfl, named rfl, named rfl, named rfl, named rfl, named rfl,
      named rfl⟩

end Sys2Proof.Machine

/-! PROOFS. Reset and silence (R220, R221, R224): the state a reset cycle leaves, and how long the volume, the output, the increment and
the phase stay at 0 after it. -/

namespace Sys2Proof.Machine

/-! ### Reset -/

/-- Settles O41: `reset_inv`. -/
theorem resetMeetsTheInvariants : Obligations.ResetMeetsTheInvariants := by
  unfold Obligations.ResetMeetsTheInvariants
  exact reset_inv

/-- With `rst` at 1 a step is a reset cycle, whatever the other pins are (R221). -/
theorem step_of_rst {s : State} (hr : s.pins.rst = true) : step s = .next s.beginCycle.resetCycle := cycle_reset _ _ hr

/-- After a reset cycle every register reads 0 (R220). -/
theorem readRegister_resetCycle (a : Addr) (s : State) : readRegister a s.resetCycle = 0 := by
  have hreset : ∀ a, readRegister a State.reset = 0 := by decide
  exact hreset a

/-- A reset cycle right after another keeps every element and takes its own pins from the list (R221). -/
theorem beginCycle_resetCycle_again (s : State) :
    s.resetCycle.beginCycle.resetCycle = { s.resetCycle with inputs := s.resetCycle.inputs.tail } := rfl

/-- Settles O8: `step_of_rst`, for the cycle and for the reset cycle after it. -/
theorem resetCycle : Obligations.ResetCycle := by
  unfold Obligations.ResetCycle
  intro s hr
  refine ⟨s.beginCycle.resetCycle, step_of_rst hr, rfl, rfl, rfl, rfl, rfl, rfl, rfl, rfl, rfl, rfl, rfl, rfl,
    fun a => readRegister_resetCycle a _, resetCycle_inv _, fun hr' => ?_⟩
  rw [step_of_rst hr', beginCycle_resetCycle_again]

/-! ### Silence -/

/-- A level that is not positive is clamped to volume 0 (R124). -/
theorem clampVolume_of_nonpos {v : Int} (h : v ≤ 0) : clampVolume v = 0 := by
  have hclamp := clampVolume_toNat v
  have hzero : (0 : Byte).toNat = 0 := rfl
  exact BitVec.eq_of_toNat_eq (by omega)

/-- The increment that SETFREQ leaves depends on the requested frequency and QEN only (R121). -/
theorem setFrequency_inc_beginCycle (f : F32) (s : State) : (setFrequency f s.beginCycle).inc = (setFrequency f s).inc := by
  rw [setFrequency_inc, setFrequency_inc, setFrequency_eff, setFrequency_eff]
  rfl

/-- At phase 0 and increment 0 a TICK stays at phase 0 (R151, R152). -/
theorem nextPhase_zero_zero : nextPhase 0 0 = some 0 := by decide +kernel

/-- The bus leaves VOL, unless it carries a SETVOL, whose clamped level VOL then is (R30, R124). -/
theorem State.BusPart.vol_cases {s b : State} (h : s.BusPart b) :
    b.vol = s.vol ∨
    ∃ d, s.pins.cfgValid = true ∧ decodeBus s.pins.busWord = .setvol d ∧ b.vol = clampVolume d.toInt := by
  unfold State.BusPart at h
  split at h
  next hv =>
    obtain ⟨-, -, -, -, hwrites, -⟩ := onlyTheNamedOperationsWrite _ _ _ (wellFormed_decodeBus _) h
    by_cases hsame : b.vol = s.vol
    · exact .inl hsame
    · obtain ⟨d, hd⟩ := hwrites hsame
      rw [hd, exec_setvol] at h
      cases h
      exact .inr ⟨d, hv, hd, rfl⟩
  next => exact .inl (by rw [h, State.beginCycle_vol])

/-- The bus leaves INC, unless it carries a SETFREQ, whose increment INC then is (R30, R121). -/
theorem State.BusPart.inc_cases {s b : State} (h : s.BusPart b) :
    b.inc = s.inc ∨
    ∃ d, s.pins.cfgValid = true ∧ decodeBus s.pins.busWord = .setfreq d ∧ b.inc = (setFrequency d s).inc := by
  unfold State.BusPart at h
  split at h
  next hv =>
    obtain ⟨-, -, -, hwrites, -⟩ := onlyTheNamedOperationsWrite _ _ _ (wellFormed_decodeBus _) h
    by_cases hsame : b.inc = s.inc
    · exact .inl hsame
    · obtain ⟨d, hd⟩ := hwrites hsame
      rw [hd, exec_setfreq] at h
      cases h
      exact .inr ⟨d, hv, hd, setFrequency_inc_beginCycle d s⟩
  next => exact .inl (by rw [h, State.beginCycle_inc])

/-- VOL and INC after a cycle without reset are those of the bus part, and PHASE and OUT those of the TICK, if there is one (R93). -/
theorem step_cases_elements {s t : State} (h : step s = .next t) :
    t = s.beginCycle.resetCycle ∨
    ∃ b, s.BusPart b ∧ t.vol = b.vol ∧ t.inc = b.inc ∧
      t.phase = (if s.pins.tick then (emitSample s).phase else s.phase) ∧
      t.out = (if s.pins.tick then (emitSample s).out else s.out) := by
  rcases step_cases h with ⟨-, ht⟩ | ⟨-, b, hb, rfl⟩
  · exact .inl ht
  · obtain ⟨hphase, hout, -⟩ := hb.frame
    refine .inr ⟨b, hb, ?_⟩
    cases s.pins.tick with
    | true => exact ⟨rfl, rfl, rfl, rfl⟩
    | false => exact ⟨rfl, rfl, hphase, hout⟩

/-- At volume 0 a cycle leaves OUT at 0, whatever it carries: a TICK reads the volume from the start of the cycle (R93, R224). -/
theorem step_out_of_vol_zero {s t : State} (h : step s = .next t) (hvol : s.vol = 0) (hout : s.out = 0) : t.out = 0 := by
  rcases step_cases_elements h with rfl | ⟨b, -, -, -, -, htout⟩
  · rfl
  · rw [htout, emitSample_out, hvol, scale_zero_right, hout, ite_self]

/-- At increment and phase 0 a cycle leaves PHASE at 0, whatever it carries (R93, R224). -/
theorem step_phase_of_inc_zero {s t : State} (h : step s = .next t) (hinc : s.inc = 0) (hphase : s.phase = 0) : t.phase = 0 := by
  rcases step_cases_elements h with rfl | ⟨b, -, -, -, htphase, -⟩
  · rfl
  · rw [htphase, emitSample_phase, hinc, hphase, nextPhase_zero_zero, Option.getD_some, ite_self]

/-- VOL stays at 0 through a cycle without a positive SETVOL (R224). -/
theorem step_vol_of_vol_zero {s t : State} (h : step s = .next t) (hvol : s.vol = 0)
    (hbus : s.pins.cfgValid = true → ∀ d, decodeBus s.pins.busWord = .setvol d → d.toInt ≤ 0) : t.vol = 0 := by
  rcases step_cases_elements h with rfl | ⟨b, hb, htvol, -⟩
  · rfl
  · rw [htvol]
    rcases hb.vol_cases with hsame | ⟨d, hv, hd, hset⟩
    · rw [hsame, hvol]
    · rw [hset, clampVolume_of_nonpos (hbus hv d hd)]

/-- INC stays at 0 through a cycle without a SETFREQ whose increment is not 0 (R224). -/
theorem step_inc_of_inc_zero {s t : State} (h : step s = .next t) (hinc : s.inc = 0)
    (hbus : s.pins.cfgValid = true → ∀ d, decodeBus s.pins.busWord = .setfreq d → (setFrequency d s).inc = 0) : t.inc = 0 := by
  rcases step_cases_elements h with rfl | ⟨b, hb, -, htinc, -⟩
  · rfl
  · rw [htinc]
    rcases hb.inc_cases with hsame | ⟨d, hv, hd, hset⟩
    · rw [hsame, hinc]
    · rw [hset, hbus hv d hd]

/-- Settles O44: the reset values, and one lemma for each of the four elements. -/
theorem silentUntilConfigured : Obligations.SilentUntilConfigured := by
  unfold Obligations.SilentUntilConfigured
  refine ⟨rfl, rfl, rfl, rfl, fun s t h => ⟨fun hvol hout hbus => ?_, fun hinc hphase hbus => ?_⟩⟩
  · exact ⟨step_vol_of_vol_zero h hvol hbus, step_out_of_vol_zero h hvol hout⟩
  · have hset : s.pins.cfgValid = true → ∀ d, decodeBus s.pins.busWord = .setfreq d → (setFrequency d s).inc = 0 :=
      fun hv d hd => hbus hv d hd _ (exec_setfreq d s)
    exact ⟨step_inc_of_inc_zero h hinc hset, step_phase_of_inc_zero h hinc hphase⟩

end Sys2Proof.Machine
